-- ==== Sys2Proof/Word.lean ====
section
/-! DEFINITION. The word types of MD4CE (spec/00_scope.md R5, R6): every value is unsigned. -/

namespace Sys2Proof

/-- The 32-bit word of the datapath and of the host port (R5). -/
abbrev Word := BitVec 32

/-- One byte of a message or of a digest (R8, R55). -/
abbrev Byte := BitVec 8

/-- The message buffer X[0..15], sixteen words (spec/10_state.md R23). -/
abbrev MsgBuf := Vector Word 16

end Sys2Proof
end

