-- ==== Sys2Proof/Machine/Operands.lean ====
section
/-! DEFINITION. Every operand form of MD4CE: the fields of a command word (spec/30_encoding.md R72, R74), the
byte view of the message buffer (spec/00_scope.md R8), and the combinational datapath of
spec/40_round_functions.md (round functions, adder tree, rotator, message scheduler, constants, role table). -/

namespace Sys2Proof

/-! ### Fields of the CTRL data word (R72) -/

/-- CMD = v[3:0] (R72). -/
def ctrlCmd (v : Word) : BitVec 4 := v.extractLsb' 0 4

/-- NBYTES = v[13:8], unsigned, no scaling (R72, R74). -/
def ctrlNbytes (v : Word) : BitVec 6 := v.extractLsb' 8 6

/-! ### Byte order and the byte view of the message buffer (R8, R53 to R55) -/

/-- Byte lane `k` of a word: v[8k+7 : 8k] (R8). -/
def byteLane (w : Word) (k : Nat) : Byte := w.extractLsb' (8 * k) 8

/-- `w` with byte lane `k` replaced by `v`, its other 24 bits unchanged (R8). -/
def setByteLane (w : Word) (k : Nat) (v : Byte) : Word :=
  (w &&& ~~~((0xFF#32) <<< (8 * k))) ||| (v.setWidth 32 <<< (8 * k))

/-- `byte(X, j)` (R8). -/
def MsgBuf.byte (x : MsgBuf) (j : Fin 64) : Byte := byteLane x[j.val / 4] (j.val % 4)

/-- `byte(X, j) <- v` (R8). -/
def MsgBuf.setByte (x : MsgBuf) (j : Fin 64) (v : Byte) : MsgBuf :=
  x.set (j.val / 4) (setByteLane x[j.val / 4] (j.val % 4) v)

/-- The four bytes of a word, least significant first (R55, and `le32bytes` of R200). -/
def le32bytes (w : Word) : List Byte := [byteLane w 0, byteLane w 1, byteLane w 2, byteLane w 3]

/-- The word of four message bytes, b0 in the low lane (R53). -/
def wordOfBytes (b0 b1 b2 b3 : Byte) : Word := b3 ++ b2 ++ b1 ++ b0

/-! ### Round functions, adder tree, rotator (R100 to R105) -/

/-- F, round 1 (R100). -/
def roundF (x y z : Word) : Word := (x &&& y) ||| (~~~x &&& z)

/-- G, round 2 (R101). -/
def roundG (x y z : Word) : Word := (x &&& y) ||| (x &&& z) ||| (y &&& z)

/-- H, round 3 (R102). -/
def roundH (x y z : Word) : Word := x ^^^ y ^^^ z

/-- `add32` (R7): the sum modulo 2^32. -/
def add32 (a b : Word) : Word := a + b

/-- The adder tree of a step (R104): the sum of its four operands modulo 2^32. -/
def adderTree (a f w k : Word) : Word := add32 (add32 a f) (add32 w k)

/-- `rotl32(v, s)` (R7), written as R7 writes it; used with 0 < s < 32 only (R105). -/
def rotl32 (v : Word) (s : Nat) : Word := (v <<< s) ||| (v >>> (32 - s))

/-! ### Rounds, message scheduler, rotation amounts, constants (R106 to R111) -/

/-- The three rounds (UOP[5:4] = 0, 1, 2; R75). -/
inductive Round where
  | r1
  | r2
  | r3
deriving DecidableEq, Repr

/-- The round function of a round (R100 to R102). -/
def roundFn : Round → Word → Word → Word → Word
  | .r1 => roundF
  | .r2 => roundG
  | .r3 => roundH

/-- The word order of round 2, the document's list (R107; 90_conflicts.md C2: the list governs). -/
def wordOrderR2 : Vector (Fin 16) 16 := #v[0, 4, 8, 12, 1, 5, 9, 13, 2, 6, 10, 14, 3, 7, 11, 15]

/-- The word order of round 3, the document's list (R108). -/
def wordOrderR3 : Vector (Fin 16) 16 := #v[0, 8, 4, 12, 2, 10, 6, 14, 1, 9, 5, 13, 3, 11, 7, 15]

/-- The message scheduler `WORD(r, i)` (R106 to R108). -/
def wordIndex (r : Round) (i : Fin 16) : Fin 16 :=
  match r with
  | .r1 => i
  | .r2 => wordOrderR2[i]
  | .r3 => wordOrderR3[i]

/-- The position p = i mod 4 of step i (R112). -/
def stepPos (i : Fin 16) : Fin 4 := ⟨i.val % 4, Nat.mod_lt _ (by decide)⟩

/-- Rotation amounts `S(r, p)` (R109). -/
def rotAmount : Round → Fin 4 → Nat
  | .r1, 0 => 3
  | .r1, 1 => 7
  | .r1, 2 => 11
  | .r1, 3 => 19
  | .r2, 0 => 3
  | .r2, 1 => 5
  | .r2, 2 => 9
  | .r2, 3 => 13
  | .r3, 0 => 3
  | .r3, 1 => 9
  | .r3, 2 => 11
  | .r3, 3 => 15

/-- Round constants `K(r)` (R110). -/
def roundConst : Round → Word
  | .r1 => 0x00000000
  | .r2 => 0x5A827999
  | .r3 => 0x6ED9EBA1

/-! ### The running state as a value, and the role table (R20, R112) -/

/-- The four words of a running state (R20): the contents of A to D, or a chaining value. -/
structure Quad where
  a : Word
  b : Word
  c : Word
  d : Word
deriving DecidableEq, Repr

/-- The names of the four words (R20). -/
inductive StateReg where
  | A
  | B
  | C
  | D
deriving DecidableEq, Repr

/-- The initial value IV (R111). -/
def iv : Quad := ⟨0x67452301, 0xEFCDAB89, 0x98BADCFE, 0x10325476⟩

/-- Read one word of a running state. -/
def Quad.get (q : Quad) : StateReg → Word
  | .A => q.a
  | .B => q.b
  | .C => q.c
  | .D => q.d

/-- Replace one word of a running state. -/
def Quad.put (q : Quad) (r : StateReg) (v : Word) : Quad :=
  match r with
  | .A => { q with a := v }
  | .B => { q with b := v }
  | .C => { q with c := v }
  | .D => { q with d := v }

/-- A row of the role table: the target and the three inputs of the round function (R112). -/
structure Role where
  target : StateReg
  x : StateReg
  y : StateReg
  z : StateReg
deriving DecidableEq, Repr

/-- The role table by p = i mod 4 (R112; N7: the same for all three rounds). -/
def roleOf : Fin 4 → Role
  | 0 => ⟨.A, .B, .C, .D⟩
  | 1 => ⟨.D, .A, .B, .C⟩
  | 2 => ⟨.C, .D, .A, .B⟩
  | 3 => ⟨.B, .C, .D, .A⟩

/-- Step i of round r on a running state (R112):
`t <- rotl32(add32(t, fn(b, c, d), X[WORD(r, i)], K(r)), S(r, p))`. -/
def Quad.roundStep (r : Round) (i : Fin 16) (x : MsgBuf) (q : Quad) : Quad :=
  let role := roleOf (stepPos i)
  let f := roundFn r (q.get role.x) (q.get role.y) (q.get role.z)
  let sum := adderTree (q.get role.target) f x[wordIndex r i] (roundConst r)
  q.put role.target (rotl32 sum (rotAmount r (stepPos i)))

/-- The same step on a rotating register file (R158, the equivalent form, not the model's own): the new word is computed from the
first position with the next three as inputs, and the registers are renamed `(A, B, C, D) <- (D, new, B, C)`. -/
def Quad.rotatingStep (r : Round) (i : Fin 16) (x : MsgBuf) (q : Quad) : Quad :=
  let sum := adderTree q.a (roundFn r q.b q.c q.d) x[wordIndex r i] (roundConst r)
  ⟨q.d, rotl32 sum (rotAmount r (stepPos i)), q.b, q.c⟩

/-- The word-wise feed-forward addition (R154, R159): no carry between words. -/
def Quad.add (p q : Quad) : Quad := ⟨add32 p.a q.a, add32 p.b q.b, add32 p.c q.c, add32 p.d q.d⟩

/-! ### Padding operands (R130, R132, R134) -/

/-- `bitlen = (8 * LEN) mod 2^64` (R134). -/
def bitLen (len : BitVec 64) : BitVec 64 := 8 * len

/-- The lower word of the bit length, bitlen[31:0] (R54, R132). -/
def bitLenLo (len : BitVec 64) : Word := (bitLen len).extractLsb' 0 32

/-- The upper word of the bit length, bitlen[63:32] (R54, R132). -/
def bitLenHi (len : BitVec 64) : Word := (bitLen len).extractLsb' 32 32

/-- X[14] and X[15] replaced by the bit length (R54, R132, R133). -/
def MsgBuf.putLength (x : MsgBuf) (len : BitVec 64) : MsgBuf := (x.set 14 (bitLenLo len)).set 15 (bitLenHi len)

/-- `for j in a..63: byte(X, j) <- 0x00` (R132); nothing when a > 63. -/
def MsgBuf.zeroFrom (x : MsgBuf) (a : Nat) : MsgBuf :=
  (List.finRange 64).foldl (fun x j => if a ≤ j.val then x.setByte j 0x00 else x) x

/-- The tail block of PAD1 before the length (R132): 0x80 at byte n, zeros from n+1 to 63. -/
def MsgBuf.padTail (x : MsgBuf) (n : BitVec 6) : MsgBuf := (x.setByte n.toFin 0x80).zeroFrom (n.toNat + 1)

/-- X[0..13] cleared and the bit length in X[14], X[15] (R133). -/
def MsgBuf.lengthOnly (len : BitVec 64) : MsgBuf := MsgBuf.putLength (Vector.replicate 16 0) len

end Sys2Proof
end

