-- ==== Sys2Proof/Syntax.lean ====
section
/-! DEFINITION. The instructions: one constructor per row of spec/opcode_table.json (21 BUS rows, the host's
accesses; 12 UOP rows, the engine's micro-ops), and the two formats they are encoded in
(spec/30_encoding.md R70, R76). -/

namespace Sys2Proof

/-- The registers of the host window by the offset decode of spec/30_encoding.md R71. -/
inductive Reg where
  | ctrl
  | status
  | lenLo
  | lenHi
  | digest (n : Fin 4)
  | rsvd20 (k : Fin 8)
  | msg (j : Fin 16)
  | rsvd80 (k : Fin 32)
deriving DecidableEq, Repr

/-- An instruction of MD4CE. The operand `v` of a write is the whole data word WDATA (for a CTRL write the
command word of R72, ignored bits included); a read carries no data (R70). -/
inductive Instr where
  /-- NOP (R181): CTRL write with CMD = 0x0. -/
  | nop (v : Word)
  /-- INIT (R182): CTRL write with CMD = 0x1. -/
  | init (v : Word)
  /-- BLOCK (R183): CTRL write with CMD = 0x2. -/
  | block (v : Word)
  /-- FINAL (R184): CTRL write with CMD = 0x3; NBYTES = v[13:8]. -/
  | final (v : Word)
  /-- A reserved command, CMD = 0x4 to 0x7 (R185). -/
  | ctrlRsvd01xx (v : Word)
  /-- A reserved command, CMD = 0x8 to 0xF (R185). -/
  | ctrlRsvd1xxx (v : Word)
  /-- RD_CTRL (R187). -/
  | rdCtrl
  /-- RD_STATUS (R188). -/
  | rdStatus
  /-- WR_STATUS (R189). -/
  | wrStatus (v : Word)
  /-- RD_LEN_LO (R190). -/
  | rdLenLo
  /-- RD_LEN_HI (R191). -/
  | rdLenHi
  /-- WR_LEN_LO (R192). -/
  | wrLenLo (v : Word)
  /-- WR_LEN_HI (R192). -/
  | wrLenHi (v : Word)
  /-- RD_DIGEST (R193): DIGESTn, n = OFF[1:0]. -/
  | rdDigest (n : Fin 4)
  /-- WR_DIGEST (R194). -/
  | wrDigest (n : Fin 4) (v : Word)
  /-- RD_RSVD_0x20 (R197): the reserved offsets 0x20 to 0x3C, k = OFF[2:0]. -/
  | rdRsvd20 (k : Fin 8)
  /-- WR_RSVD_0x20 (R198). -/
  | wrRsvd20 (k : Fin 8) (v : Word)
  /-- RD_MSG (R195): MSGj, j = OFF[3:0]. -/
  | rdMsg (j : Fin 16)
  /-- WR_MSG (R196). -/
  | wrMsg (j : Fin 16) (v : Word)
  /-- RD_RSVD_0x80 (R197): the reserved offsets 0x80 to 0xFC, k = OFF[4:0]. -/
  | rdRsvd80 (k : Fin 32)
  /-- WR_RSVD_0x80 (R198). -/
  | wrRsvd80 (k : Fin 32) (v : Word)
  /-- PAD1 (R132), UOP 0x32. -/
  | pad1
  /-- SAVE (R150), UOP 0x31. -/
  | save
  /-- STEP_R1 (R151), UOP 0x00 + i. -/
  | stepR1 (i : Fin 16)
  /-- STEP_R2 (R152), UOP 0x10 + i. -/
  | stepR2 (i : Fin 16)
  /-- STEP_R3 (R153), UOP 0x20 + i. -/
  | stepR3 (i : Fin 16)
  /-- FFWD (R154), UOP 0x30. -/
  | ffwd
  /-- PAD2 (R133), UOP 0x33. -/
  | pad2
  /-- IDLE (R157), UOP 0x3F. -/
  | idle
  /-- Reserved UOP values 0x34 to 0x37 (R231), k = UOP[1:0]. -/
  | uopRsvd34 (k : Fin 4)
  /-- Reserved UOP values 0x38 to 0x3B (R231), k = UOP[1:0]. -/
  | uopRsvd38 (k : Fin 4)
  /-- Reserved UOP values 0x3C and 0x3D (R231), k = UOP[0]. -/
  | uopRsvd3C (k : Fin 2)
  /-- Reserved UOP value 0x3E (R231). -/
  | uopRsvd3E
deriving DecidableEq, Repr

/-- The two encodings: a BUS transaction word T (R70) or a micro-op counter value (R76). -/
inductive Code where
  | bus (t : BitVec 39)
  | uop (u : BitVec 6)
deriving DecidableEq, Repr

end Sys2Proof
end

