-- ==== Sys2Proof/Machine/State.lean ====
section
/-! DEFINITION. The state of one MD4CE instance (spec/10_state.md), its reset value
(spec/70_reset_and_hazards.md R250), and the reasons a step can stop. -/

namespace Sys2Proof.Machine

/-- PHASE, a 2-bit register whose four values all have a name (R26). -/
inductive Phase where
  | ready
  | busy
  | done
  | error
deriving DecidableEq, Repr

/-- The engine's errors (R220, R221). -/
inductive Err where
  | cmd
  | busy
  | tooLarge
deriving DecidableEq, Repr

/-- One element of an interleaving (R58; log entry 1): what the outside world or the engine does next. -/
inductive Event where
  /-- One host access on the port, as its transaction word T (R70). -/
  | bus (t : BitVec 39)
  /-- One host access as the host's own bus sees it: `size` bytes at byte offset `off` from MD4CE_BASE (R9, R52). -/
  | mem (we : Bool) (off size : Nat) (data : Word)
  /-- The engine's turn (R157). -/
  | engine
  /-- The RST input takes this level (R251). -/
  | rst (level : Bool)
deriving DecidableEq, Repr

/-- Why the machine stops with a fault. -/
inductive Fault where
  /-- Raised by the reserved micro-ops, UOP 0x34 to 0x3E (R77, R231): the engine agent is stuck and has no step.
  Safe: it stops where the spec gives the engine no next state; the host's own accesses still run. -/
  | engineStuck
deriving DecidableEq, Repr

/-- Why a step has no meaning. -/
inductive Refusal where
  /-- Raised by exec's arm of an instruction that has no meaning yet. Safe. No arm raises it. -/
  | notModelled (mnemonic : String)
  /-- Raised by the fetch of a `mem` event that is not one aligned 32-bit word, and by a platform's routing of an access that only
  reaches into a window (R52: "a model refuses any such access rather than guessing its effect"). Safe. -/
  | narrowAccess
  /-- Raised by the fetch of a `mem` event whose offset lies outside the 256-byte window (R51): it is no access to this
  engine. Safe. -/
  | outsideWindow
deriving DecidableEq, Repr

/-- The state. The first eighteen fields are the spec's registers under the spec's names; RST is the level of the reset input;
`events` and `reads` are the model's own (log entries 1 and 3). -/
structure State where
  /-- State register file (R20). -/
  A : Word
  B : Word
  C : Word
  D : Word
  /-- Save registers (R22). -/
  AA : Word
  BB : Word
  CC : Word
  DD : Word
  /-- Message buffer (R23). -/
  X : MsgBuf
  /-- Byte counter (R25). -/
  LEN : BitVec 64
  /-- R26. -/
  PHASE : Phase
  /-- Micro-operation counter, the program counter (R27, R32). -/
  UOP : BitVec 6
  /-- R28. -/
  FIN : Bool
  /-- R29. -/
  NEED2 : Bool
  /-- R30. -/
  NB : BitVec 6
  /-- Sticky error flags (R33). -/
  ERR_CMD : Bool
  ERR_BUSY : Bool
  ERR_TOOLARGE : Bool
  /-- The level of the reset input (R251). -/
  RST : Bool
  /-- The rest of the interleaving, next first (the model's own). -/
  events : List Event
  /-- The words host reads returned, newest first (the model's own). -/
  reads : List Word
deriving DecidableEq, Repr

/-- The state right after reset (R250), RST released, nothing placed and nothing read. -/
def State.reset : State where
  A := 0x67452301
  B := 0xEFCDAB89
  C := 0x98BADCFE
  D := 0x10325476
  AA := 0
  BB := 0
  CC := 0
  DD := 0
  X := Vector.replicate 16 0
  LEN := 0
  PHASE := .ready
  UOP := 0x3F
  FIN := false
  NEED2 := false
  NB := 0
  ERR_CMD := false
  ERR_BUSY := false
  ERR_TOOLARGE := false
  RST := false
  events := []
  reads := []

/-- What a step finds to do (Machine/Fetch.lean). -/
inductive Fetched where
  /-- Run this instruction from this state. -/
  | instr (i : Instr) (s : State)
  /-- The RST input takes this level. -/
  | pin (level : Bool) (s : State)
  /-- Nothing that has a meaning. -/
  | refuse (r : Refusal)
deriving DecidableEq, Repr

end Sys2Proof.Machine
end

