-- ==== Sys2Proof/Machine/Ops.lean ====
section
/-! DEFINITION. The named operations over the registers: the running state as a value, the error primitives, the reset
state, and the two forms of a host access. -/

namespace Sys2Proof.Machine

/-- The outcome type of every meaning. -/
abbrev Result := Host.Outcome State Fault Refusal

/-- The contents of A to D (R20). -/
def State.quad (s : State) : Quad := ⟨s.A, s.B, s.C, s.D⟩

/-- Write A to D. -/
def State.setQuad (s : State) (q : Quad) : State := { s with A := q.a, B := q.b, C := q.c, D := q.d }

/-- The contents of AA to DD (R22). -/
def State.saved (s : State) : Quad := ⟨s.AA, s.BB, s.CC, s.DD⟩

/-- The error primitives `raise ErrCmd/ErrBusy/ErrTooLarge` (R220): the one operation that takes an error. It sets the sticky
flag; ErrTooLarge also moves PHASE to ERROR. Control goes nowhere (R224), and nothing is saved, so there is no return (R225). -/
def raiseErr (e : Err) (s : State) : State :=
  match e with
  | .cmd => { s with ERR_CMD := true }
  | .busy => { s with ERR_BUSY := true }
  | .tooLarge => { s with ERR_TOOLARGE := true, PHASE := .error }

/-- Every register at its value of R250. INIT (R182) and RST (R251) both come here; it is also the only way out of
ERROR (R225). The RST level, the events and the reads are not registers of R250 and stay. -/
def resetRegs (s : State) : State :=
  { State.reset with RST := s.RST, events := s.events, reads := s.reads }

/-- A host write with effect `f`: without effect while RST is asserted (R251). -/
def hostWrite (s : State) (f : State → State) : Result := .next (if s.RST then s else f s)

/-- A host read that returns `v`: 0 while RST is asserted (R251). No other state changes (R57). -/
def hostRead (s : State) (v : Word) : Result := .next { s with reads := (if s.RST then 0 else v) :: s.reads }

/-- A CTRL write: refused with ErrBusy while BUSY (R180), otherwise the command `f`. -/
def ctrlWrite (s : State) (f : State → State) : Result :=
  hostWrite s fun s => if s.PHASE = .busy then raiseErr .busy s else f s

/-- The message-length limit, 2^61 bytes (R134, R136). -/
def lengthLimit : Nat := 2 ^ 61

/-- BLOCK and FINAL while not BUSY (R183, R184), in the order of checks of R223: the phase, then the length limit on the
exact sum (log entry 8), then the accepting writes. `bytes` is what the command adds to LEN. -/
def acceptCommand (bytes : Nat) (fin : Bool) (nb uop : BitVec 6) (s : State) : State :=
  if s.PHASE ≠ .ready then raiseErr .cmd s
  else if lengthLimit ≤ s.LEN.toNat + bytes then raiseErr .tooLarge s
  else { s with LEN := s.LEN + BitVec.ofNat 64 bytes, FIN := fin, NB := nb, NEED2 := false, UOP := uop, PHASE := .busy }

end Sys2Proof.Machine
end

