-- ==== Sys2Proof/Machine/Flags.lean ====
section
/-! DEFINITION. The status word and the gated views of the host window (spec/10_state.md R34, R35): no storage of their
own. -/

namespace Sys2Proof.Machine

/-- The 2-bit encoding of PHASE (R26). -/
def Phase.code : Phase → BitVec 2
  | .ready => 0
  | .busy => 1
  | .done => 2
  | .error => 3

/-- STATUS = {2'b0, NB, NEED2, FIN, UOP, 6'b0, PHASE, 3'b0, ERR_TOOLARGE, ERR_BUSY, ERR_CMD, DONE, BUSY} (R34). -/
def statusWord (s : State) : Word :=
  0#2 ++ s.NB ++ BitVec.ofBool s.NEED2 ++ BitVec.ofBool s.FIN ++ s.UOP ++ 0#6 ++ s.PHASE.code ++ 0#3 ++
    BitVec.ofBool s.ERR_TOOLARGE ++ BitVec.ofBool s.ERR_BUSY ++ BitVec.ofBool s.ERR_CMD ++
    BitVec.ofBool (s.PHASE == .done) ++ BitVec.ofBool (s.PHASE == .busy)

/-- LEN[31:0] (R190). -/
def lenLoView (s : State) : Word := s.LEN.extractLsb' 0 32

/-- LEN[63:32] (R191). -/
def lenHiView (s : State) : Word := s.LEN.extractLsb' 32 32

/-- The register DIGESTn shows: A, B, C, D (R193). -/
def digestReg : Fin 4 → StateReg
  | 0 => .A
  | 1 => .B
  | 2 => .C
  | 3 => .D

/-- DIGESTn: the state word in READY and DONE, 0 in BUSY and ERROR (R193). -/
def digestView (n : Fin 4) (s : State) : Word :=
  match s.PHASE with
  | .ready | .done => s.quad.get (digestReg n)
  | .busy | .error => 0

/-- MSGj: the message word unless BUSY, then 0 (R195). -/
def msgView (j : Fin 16) (s : State) : Word := if s.PHASE = .busy then 0 else s.X[j]

end Sys2Proof.Machine
end

