-- ==== Sys2Proof/Machine/Access.lean ====
section
/-! DEFINITION. The meanings of the other register accesses (spec/43_host_interface.md R187 to R198). -/

namespace Sys2Proof.Machine

/-- RD_CTRL (R187): 0. -/
def execRdCtrl (s : State) : Result := hostRead s 0

/-- RD_STATUS (R188): the status word, in every phase. -/
def execRdStatus (s : State) : Result := hostRead s (statusWord s)

/-- WR_STATUS (R189): ignored. -/
def execWrStatus (_v : Word) (s : State) : Result := hostWrite s fun s => s

/-- RD_LEN_LO (R190). -/
def execRdLenLo (s : State) : Result := hostRead s (lenLoView s)

/-- RD_LEN_HI (R191). -/
def execRdLenHi (s : State) : Result := hostRead s (lenHiView s)

/-- WR_LEN_LO (R192): ignored. -/
def execWrLenLo (_v : Word) (s : State) : Result := hostWrite s fun s => s

/-- WR_LEN_HI (R192): ignored. -/
def execWrLenHi (_v : Word) (s : State) : Result := hostWrite s fun s => s

/-- RD_DIGEST (R193): gated by PHASE. -/
def execRdDigest (n : Fin 4) (s : State) : Result := hostRead s (digestView n s)

/-- WR_DIGEST (R194): ignored. -/
def execWrDigest (_n : Fin 4) (_v : Word) (s : State) : Result := hostWrite s fun s => s

/-- RD_RSVD_0x20 (R197): 0. -/
def execRdRsvd20 (_k : Fin 8) (s : State) : Result := hostRead s 0

/-- WR_RSVD_0x20 (R198): ignored. -/
def execWrRsvd20 (_k : Fin 8) (_v : Word) (s : State) : Result := hostWrite s fun s => s

/-- RD_MSG (R195): gated by PHASE. -/
def execRdMsg (j : Fin 16) (s : State) : Result := hostRead s (msgView j s)

/-- WR_MSG (R196): refused with ErrBusy while BUSY, else X[j] <- v. -/
def execWrMsg (j : Fin 16) (v : Word) (s : State) : Result :=
  hostWrite s fun s => if s.PHASE = .busy then raiseErr .busy s else { s with X := s.X.set j v }

/-- RD_RSVD_0x80 (R197): 0. -/
def execRdRsvd80 (_k : Fin 32) (s : State) : Result := hostRead s 0

/-- WR_RSVD_0x80 (R198): ignored. -/
def execWrRsvd80 (_k : Fin 32) (_v : Word) (s : State) : Result := hostWrite s fun s => s

end Sys2Proof.Machine
end

