-- ==== Sys2Proof/Machine/Command.lean ====
section
/-! DEFINITION. The meanings of the CTRL writes (spec/43_host_interface.md R180 to R186). -/

namespace Sys2Proof.Machine

/-- NOP (R181): no state changes. -/
def execNop (_v : Word) (s : State) : Result := ctrlWrite s fun s => s

/-- INIT (R182): the state of R250. -/
def execInit (_v : Word) (s : State) : Result := ctrlWrite s resetRegs

/-- BLOCK (R183): adds 64 bytes and starts at SAVE. -/
def execBlock (_v : Word) (s : State) : Result := ctrlWrite s (acceptCommand 64 false 0 0x31)

/-- FINAL (R184): adds n = NBYTES bytes, latches n in NB and starts at PAD1. -/
def execFinal (v : Word) (s : State) : Result :=
  ctrlWrite s (acceptCommand (ctrlNbytes v).toNat true (ctrlNbytes v) 0x32)

/-- A reserved command, CMD = 0x4 to 0x7 (R185). -/
def execCtrlRsvd01xx (_v : Word) (s : State) : Result := ctrlWrite s (raiseErr .cmd)

/-- A reserved command, CMD = 0x8 to 0xF (R185). -/
def execCtrlRsvd1xxx (_v : Word) (s : State) : Result := ctrlWrite s (raiseErr .cmd)

end Sys2Proof.Machine
end

