-- ==== Sys2Proof/Machine/Compression.lean ====
section
/-! DEFINITION. The meanings of the compression micro-ops, of IDLE and of the reserved micro-op values
(spec/42_compression.md R150 to R157, spec/60_exceptions.md R231). A meaning is the micro-op's own effect; that the engine
performs one only while PHASE = BUSY is the fetch's (Machine/Fetch.lean, log entry 14). -/

namespace Sys2Proof.Machine

/-- SAVE (R150). -/
def execSave (s : State) : Result := .next { s with AA := s.A, BB := s.B, CC := s.C, DD := s.D, UOP := 0x00 }

/-- One step of a round: the target register of the role table (R112), then `UOP <- UOP + 1` (R155). -/
def roundStep (r : Round) (i : Fin 16) (s : State) : State :=
  { s.setQuad (s.quad.roundStep r i s.X) with UOP := s.UOP + 1 }

/-- STEP_R1, step i (R151). -/
def execStepR1 (i : Fin 16) (s : State) : Result := .next (roundStep .r1 i s)

/-- STEP_R2, step i (R152). -/
def execStepR2 (i : Fin 16) (s : State) : Result := .next (roundStep .r2 i s)

/-- STEP_R3, step i (R153). -/
def execStepR3 (i : Fin 16) (s : State) : Result := .next (roundStep .r3 i s)

/-- FFWD (R154): the feed-forward add; PAD2 when FIN and NEED2, else IDLE with PHASE DONE or READY. -/
def execFfwd (s : State) : Result :=
  let s' := s.setQuad (s.quad.add s.saved)
  if s.FIN = true ∧ s.NEED2 = true then .next { s' with UOP := 0x33 }
  else .next { s' with UOP := 0x3F, PHASE := if s.FIN then .done else .ready }

/-- IDLE (R157): no micro-op is performed. -/
def execIdle (s : State) : Result := .next s

/-- Reserved UOP 0x34 to 0x37 (R231): the engine agent is stuck. -/
def execUopRsvd34 (_k : Fin 4) (_s : State) : Result := .fault .engineStuck

/-- Reserved UOP 0x38 to 0x3B (R231): the engine agent is stuck. -/
def execUopRsvd38 (_k : Fin 4) (_s : State) : Result := .fault .engineStuck

/-- Reserved UOP 0x3C and 0x3D (R231): the engine agent is stuck. -/
def execUopRsvd3C (_k : Fin 2) (_s : State) : Result := .fault .engineStuck

/-- Reserved UOP 0x3E (R231): the engine agent is stuck. -/
def execUopRsvd3E (_s : State) : Result := .fault .engineStuck

end Sys2Proof.Machine
end

