-- ==== Sys2Proof/Machine/Padding.lean ====
section
/-! DEFINITION. The meanings of the padding micro-ops (spec/41_padding.md R132, R133). -/

namespace Sys2Proof.Machine

/-- PAD1 (R132): 0x80 at byte n = NB, zeros behind it; the bit length in X[14], X[15] when n ≤ 55, else NEED2; then SAVE. -/
def execPad1 (s : State) : Result :=
  let tail := s.X.padTail s.NB
  if s.NB.toNat ≤ 55 then .next { s with X := tail.putLength s.LEN, NEED2 := false, UOP := 0x31 }
  else .next { s with X := tail, NEED2 := true, UOP := 0x31 }

/-- PAD2 (R133): the length-only block; then SAVE. -/
def execPad2 (s : State) : Result := .next { s with X := MsgBuf.lengthOnly s.LEN, NEED2 := false, UOP := 0x31 }

end Sys2Proof.Machine
end

