-- ==== Sys2Proof/Machine/Dispatch.lean ====
section
/-! DEFINITION. One arm per instruction. -/

namespace Sys2Proof.Machine

def exec (i : Instr) (s : State) : Host.Outcome State Fault Refusal :=
  match i with
  | .nop v => Sys2Proof.Machine.execNop v s
  | .init v => Sys2Proof.Machine.execInit v s
  | .block v => Sys2Proof.Machine.execBlock v s
  | .final v => Sys2Proof.Machine.execFinal v s
  | .ctrlRsvd01xx v => Sys2Proof.Machine.execCtrlRsvd01xx v s
  | .ctrlRsvd1xxx v => Sys2Proof.Machine.execCtrlRsvd1xxx v s
  | .rdCtrl => Sys2Proof.Machine.execRdCtrl s
  | .rdStatus => Sys2Proof.Machine.execRdStatus s
  | .wrStatus v => Sys2Proof.Machine.execWrStatus v s
  | .rdLenLo => Sys2Proof.Machine.execRdLenLo s
  | .rdLenHi => Sys2Proof.Machine.execRdLenHi s
  | .wrLenLo v => Sys2Proof.Machine.execWrLenLo v s
  | .wrLenHi v => Sys2Proof.Machine.execWrLenHi v s
  | .rdDigest n => Sys2Proof.Machine.execRdDigest n s
  | .wrDigest n v => Sys2Proof.Machine.execWrDigest n v s
  | .rdRsvd20 k => Sys2Proof.Machine.execRdRsvd20 k s
  | .wrRsvd20 k v => Sys2Proof.Machine.execWrRsvd20 k v s
  | .rdMsg j => Sys2Proof.Machine.execRdMsg j s
  | .wrMsg j v => Sys2Proof.Machine.execWrMsg j v s
  | .rdRsvd80 k => Sys2Proof.Machine.execRdRsvd80 k s
  | .wrRsvd80 k v => Sys2Proof.Machine.execWrRsvd80 k v s
  | .pad1 => Sys2Proof.Machine.execPad1 s
  | .save => Sys2Proof.Machine.execSave s
  | .stepR1 k => Sys2Proof.Machine.execStepR1 k s
  | .stepR2 k => Sys2Proof.Machine.execStepR2 k s
  | .stepR3 k => Sys2Proof.Machine.execStepR3 k s
  | .ffwd => Sys2Proof.Machine.execFfwd s
  | .pad2 => Sys2Proof.Machine.execPad2 s
  | .idle => Sys2Proof.Machine.execIdle s
  | .uopRsvd34 k => Sys2Proof.Machine.execUopRsvd34 k s
  | .uopRsvd38 k => Sys2Proof.Machine.execUopRsvd38 k s
  | .uopRsvd3C k => Sys2Proof.Machine.execUopRsvd3C k s
  | .uopRsvd3E => Sys2Proof.Machine.execUopRsvd3E s

end Sys2Proof.Machine
end

