-- ==== Sys2Proof/WellFormed.lean ====
section
/-! DEFINITION. Well-formedness of an instruction: the command word of a CTRL write holds the CMD code its
constructor names (spec/30_encoding.md R72, R73). Every other operand is bounded by its type. -/

namespace Sys2Proof

/-- Each command word carries the CMD of its own row (R73). -/
def Instr.wf : Instr → Bool
  | .nop v => ctrlCmd v == 0x0
  | .init v => ctrlCmd v == 0x1
  | .block v => ctrlCmd v == 0x2
  | .final v => ctrlCmd v == 0x3
  | .ctrlRsvd01xx v => (ctrlCmd v).extractLsb' 2 2 == 0b01
  | .ctrlRsvd1xxx v => (ctrlCmd v).extractLsb' 3 1 == 0b1
  | .rdCtrl | .rdStatus | .wrStatus _ | .rdLenLo | .rdLenHi | .wrLenLo _ | .wrLenHi _ => true
  | .rdDigest _ | .wrDigest _ _ | .rdRsvd20 _ | .wrRsvd20 _ _ | .rdMsg _ | .wrMsg _ _ => true
  | .rdRsvd80 _ | .wrRsvd80 _ _ => true
  | .pad1 | .save | .stepR1 _ | .stepR2 _ | .stepR3 _ | .ffwd | .pad2 | .idle => true
  | .uopRsvd34 _ | .uopRsvd38 _ | .uopRsvd3C _ | .uopRsvd3E => true

end Sys2Proof
end

