-- ==== Sys2Proof/Decode.lean ====
section
/-! DEFINITION. Decoding (spec/30_encoding.md R70 to R78) and, after it, encoding from the same tables. The
decoder of BUS words is total on 39 bits and the decoder of micro-ops is total on 6 bits (R78); on bytes the
decoder rejects by name what is neither. -/

namespace Sys2Proof

/-! ### Decoding -/

/-- The offset decode of R71, by the leading bits of OFF. -/
def decodeOff (off : BitVec 6) : Reg :=
  if off.getLsbD 5 then .rsvd80 (off.extractLsb' 0 5).toFin
  else if off.getLsbD 4 then .msg (off.extractLsb' 0 4).toFin
  else if off.getLsbD 3 then .rsvd20 (off.extractLsb' 0 3).toFin
  else if off.getLsbD 2 then .digest (off.extractLsb' 0 2).toFin
  else if off = 0b000000 then .ctrl
  else if off = 0b000001 then .status
  else if off = 0b000010 then .lenLo
  else .lenHi

/-- The command of a CTRL write by CMD = v[3:0] (R73). -/
def decodeCtrl (v : Word) : Instr :=
  if (ctrlCmd v).getLsbD 3 then .ctrlRsvd1xxx v
  else if (ctrlCmd v).getLsbD 2 then .ctrlRsvd01xx v
  else if ctrlCmd v = 0x0 then .nop v
  else if ctrlCmd v = 0x1 then .init v
  else if ctrlCmd v = 0x2 then .block v
  else .final v

/-- A host read of a register (R71). -/
def decodeRead : Reg → Instr
  | .ctrl => .rdCtrl
  | .status => .rdStatus
  | .lenLo => .rdLenLo
  | .lenHi => .rdLenHi
  | .digest n => .rdDigest n
  | .rsvd20 k => .rdRsvd20 k
  | .msg j => .rdMsg j
  | .rsvd80 k => .rdRsvd80 k

/-- A host write of `v` to a register (R71, R73). -/
def decodeWrite (v : Word) : Reg → Instr
  | .ctrl => decodeCtrl v
  | .status => .wrStatus v
  | .lenLo => .wrLenLo v
  | .lenHi => .wrLenHi v
  | .digest n => .wrDigest n v
  | .rsvd20 k => .wrRsvd20 k v
  | .msg j => .wrMsg j v
  | .rsvd80 k => .wrRsvd80 k v

/-- WDATA = T[31:0] (R70). -/
def busData (t : BitVec 39) : Word := t.extractLsb' 0 32

/-- OFF = T[37:32] (R70). -/
def busOff (t : BitVec 39) : BitVec 6 := t.extractLsb' 32 6

/-- WE = T[38] (R70). -/
def busWe (t : BitVec 39) : Bool := t.getLsbD 38

/-- The decoder of BUS transactions, total on 39 bits (R78). The data bits of a read have no meaning (R70): log entry 9. -/
def decodeBus (t : BitVec 39) : Instr :=
  if busWe t then decodeWrite (busData t) (decodeOff (busOff t)) else decodeRead (decodeOff (busOff t))

/-- The decoder of the micro-op counter, total on 6 bits (R76, R77). -/
def decodeUop (u : BitVec 6) : Instr :=
  let lo4 : Fin 16 := (u.extractLsb' 0 4).toFin
  let lo2 : Fin 4 := (u.extractLsb' 0 2).toFin
  if u.extractLsb' 4 2 = 0b00 then .stepR1 lo4
  else if u.extractLsb' 4 2 = 0b01 then .stepR2 lo4
  else if u.extractLsb' 4 2 = 0b10 then .stepR3 lo4
  else if u = 0x30 then .ffwd
  else if u = 0x31 then .save
  else if u = 0x32 then .pad1
  else if u = 0x33 then .pad2
  else if u = 0x3F then .idle
  else if u.extractLsb' 2 4 = 0b1101 then .uopRsvd34 lo2
  else if u.extractLsb' 2 4 = 0b1110 then .uopRsvd38 lo2
  else if u = 0x3E then .uopRsvd3E
  else .uopRsvd3C (u.extractLsb' 0 1).toFin

/-- The decoder of either format. -/
def decode : Code → Instr
  | .bus t => decodeBus t
  | .uop u => decodeUop u

/-- Why a list of bytes is no instruction. -/
inductive DecodeError where
  /-- Five bytes whose bit 39 is set: T has 39 bits (R70). -/
  | busTooWide
  /-- One byte whose bit 6 or 7 is set: UOP has 6 bits (R76). -/
  | uopTooWide
  /-- Neither one byte nor five. -/
  | badLength
deriving DecidableEq, Repr

/-- The code held in bytes, the first byte the least significant (log entry 12). -/
def codeOfBytes : List Byte → Except DecodeError Code
  | [b] => if b.extractLsb' 6 2 = 0 then .ok (.uop (b.extractLsb' 0 6)) else .error .uopTooWide
  | [b0, b1, b2, b3, b4] =>
    if b4.getLsbD 7 then .error .busTooWide else .ok (.bus ((b4 ++ b3 ++ b2 ++ b1 ++ b0).extractLsb' 0 39))
  | _ => .error .badLength

/-- The decoder on bytes: total, rejecting by name. -/
def decodeBytes (bs : List Byte) : Except DecodeError Instr :=
  match codeOfBytes bs with
  | .ok c => .ok (decode c)
  | .error e => .error e

/-- The instruction the decoder reads from a word numbered as spec/opcode_table.json numbers it: a row of at
most 32 bits is a UOP row (one byte), a wider row a BUS row (five bytes); log entry 11. -/
def decodeTableWord (nbits w : Nat) : Option Instr :=
  if nbits ≤ 32 then
    if w < 2 ^ 8 then (decodeBytes [BitVec.ofNat 8 w]).toOption else none
  else if w < 2 ^ 40 then
    (decodeBytes [BitVec.ofNat 8 w, BitVec.ofNat 8 (w / 2 ^ 8), BitVec.ofNat 8 (w / 2 ^ 16), BitVec.ofNat 8 (w / 2 ^ 24),
      BitVec.ofNat 8 (w / 2 ^ 32)]).toOption
  else none

/-! ### Encoding -/

/-- The OFF field of a register (R71). -/
def Reg.off : Reg → BitVec 6
  | .ctrl => 0b000000
  | .status => 0b000001
  | .lenLo => 0b000010
  | .lenHi => 0b000011
  | .digest n => 0b0001#4 ++ (BitVec.ofFin n : BitVec 2)
  | .rsvd20 k => 0b001#3 ++ (BitVec.ofFin k : BitVec 3)
  | .msg j => 0b01#2 ++ (BitVec.ofFin j : BitVec 4)
  | .rsvd80 k => 0b1#1 ++ (BitVec.ofFin k : BitVec 5)

/-- The transaction word T = {WE, OFF, WDATA} (R70). -/
def busWord (we : Bool) (off : BitVec 6) (v : Word) : BitVec 39 := BitVec.ofBool we ++ off ++ v

/-- A write of `v` (R79: `{1, OFF, imm32}`). -/
def busWrite (r : Reg) (v : Word) : BitVec 39 := busWord true r.off v

/-- A read (R79: `{0, OFF, 0}`). -/
def busRead (r : Reg) : BitVec 39 := busWord false r.off 0

/-- The encoding of an instruction (R70 to R76). -/
def encode : Instr → Code
  | .nop v => .bus (busWrite .ctrl v)
  | .init v => .bus (busWrite .ctrl v)
  | .block v => .bus (busWrite .ctrl v)
  | .final v => .bus (busWrite .ctrl v)
  | .ctrlRsvd01xx v => .bus (busWrite .ctrl v)
  | .ctrlRsvd1xxx v => .bus (busWrite .ctrl v)
  | .rdCtrl => .bus (busRead .ctrl)
  | .rdStatus => .bus (busRead .status)
  | .wrStatus v => .bus (busWrite .status v)
  | .rdLenLo => .bus (busRead .lenLo)
  | .rdLenHi => .bus (busRead .lenHi)
  | .wrLenLo v => .bus (busWrite .lenLo v)
  | .wrLenHi v => .bus (busWrite .lenHi v)
  | .rdDigest n => .bus (busRead (.digest n))
  | .wrDigest n v => .bus (busWrite (.digest n) v)
  | .rdRsvd20 k => .bus (busRead (.rsvd20 k))
  | .wrRsvd20 k v => .bus (busWrite (.rsvd20 k) v)
  | .rdMsg j => .bus (busRead (.msg j))
  | .wrMsg j v => .bus (busWrite (.msg j) v)
  | .rdRsvd80 k => .bus (busRead (.rsvd80 k))
  | .wrRsvd80 k v => .bus (busWrite (.rsvd80 k) v)
  | .pad1 => .uop 0x32
  | .save => .uop 0x31
  | .stepR1 i => .uop (0b00#2 ++ (BitVec.ofFin i : BitVec 4))
  | .stepR2 i => .uop (0b01#2 ++ (BitVec.ofFin i : BitVec 4))
  | .stepR3 i => .uop (0b10#2 ++ (BitVec.ofFin i : BitVec 4))
  | .ffwd => .uop 0x30
  | .pad2 => .uop 0x33
  | .idle => .uop 0x3F
  | .uopRsvd34 k => .uop (0b1101#4 ++ (BitVec.ofFin k : BitVec 2))
  | .uopRsvd38 k => .uop (0b1110#4 ++ (BitVec.ofFin k : BitVec 2))
  | .uopRsvd3C k => .uop (0b11110#5 ++ (BitVec.ofFin k : BitVec 1))
  | .uopRsvd3E => .uop 0x3E

/-- The bytes of a code, least significant first: five for a BUS word, one for a micro-op (log entry 12). -/
def Code.bytes : Code → List Byte
  | .bus t => [t.extractLsb' 0 8, t.extractLsb' 8 8, t.extractLsb' 16 8, t.extractLsb' 24 8, t.extractLsb' 32 8]
  | .uop u => [u.setWidth 8]

/-- The bytes of an instruction. -/
def encodeBytes (i : Instr) : List Byte := (encode i).bytes

/-- The instruction is a micro-op of the engine, not an access of the host (R76, R70). -/
def Instr.isMicroOp (i : Instr) : Bool :=
  match encode i with
  | .uop _ => true
  | .bus _ => false

/-! ### The opcode table, as spec/opcode_table.json gives it -/

/-- A row of the table: its mnemonic, mask and match. -/
structure Row (n : Nat) where
  mnemonic : String
  mask : BitVec n
  bits : BitVec n
deriving DecidableEq, Repr

/-- A word matches a row when its masked bits are the row's. -/
def Row.matches {n : Nat} (r : Row n) (w : BitVec n) : Bool := w &&& r.mask == r.bits

/-- The BUS rows for CTRL writes and the registers below 0x10. -/
def busRowsLow : List (Row 39) :=
  [⟨"NOP", 0x7F0000000F, 0x4000000000⟩, ⟨"INIT", 0x7F0000000F, 0x4000000001⟩, ⟨"BLOCK", 0x7F0000000F, 0x4000000002⟩,
   ⟨"FINAL", 0x7F0000000F, 0x4000000003⟩, ⟨"CTRL_RSVD_CMD_01xx", 0x7F0000000C, 0x4000000004⟩,
   ⟨"CTRL_RSVD_CMD_1xxx", 0x7F00000008, 0x4000000008⟩, ⟨"RD_CTRL", 0x7F00000000, 0x0000000000⟩,
   ⟨"RD_STATUS", 0x7F00000000, 0x0100000000⟩, ⟨"WR_STATUS", 0x7F00000000, 0x4100000000⟩,
   ⟨"RD_LEN_LO", 0x7F00000000, 0x0200000000⟩, ⟨"RD_LEN_HI", 0x7F00000000, 0x0300000000⟩,
   ⟨"WR_LEN_LO", 0x7F00000000, 0x4200000000⟩, ⟨"WR_LEN_HI", 0x7F00000000, 0x4300000000⟩]

/-- The BUS rows for the registers from 0x10 up. -/
def busRowsHigh : List (Row 39) :=
  [⟨"RD_DIGEST", 0x7C00000000, 0x0400000000⟩, ⟨"WR_DIGEST", 0x7C00000000, 0x4400000000⟩,
   ⟨"RD_RSVD_0x20", 0x7800000000, 0x0800000000⟩, ⟨"WR_RSVD_0x20", 0x7800000000, 0x4800000000⟩,
   ⟨"RD_MSG", 0x7000000000, 0x1000000000⟩, ⟨"WR_MSG", 0x7000000000, 0x5000000000⟩,
   ⟨"RD_RSVD_0x80", 0x6000000000, 0x2000000000⟩, ⟨"WR_RSVD_0x80", 0x6000000000, 0x6000000000⟩]

/-- The 21 BUS rows. -/
def busRows : List (Row 39) := busRowsLow ++ busRowsHigh

/-- The 12 UOP rows. -/
def uopRows : List (Row 6) :=
  [⟨"PAD1", 0x3F, 0x32⟩, ⟨"SAVE", 0x3F, 0x31⟩, ⟨"STEP_R1", 0x30, 0x00⟩, ⟨"STEP_R2", 0x30, 0x10⟩,
   ⟨"STEP_R3", 0x30, 0x20⟩, ⟨"FFWD", 0x3F, 0x30⟩, ⟨"PAD2", 0x3F, 0x33⟩, ⟨"IDLE", 0x3F, 0x3F⟩,
   ⟨"UOP_RSVD_0x34_0x37", 0x3C, 0x34⟩, ⟨"UOP_RSVD_0x38_0x3B", 0x3C, 0x38⟩, ⟨"UOP_RSVD_0x3C_0x3D", 0x3E, 0x3C⟩,
   ⟨"UOP_RSVD_0x3E", 0x3F, 0x3E⟩]

/-- The mnemonic of an instruction's row. -/
def Instr.mnemonic : Instr → String
  | .nop _ => "NOP"
  | .init _ => "INIT"
  | .block _ => "BLOCK"
  | .final _ => "FINAL"
  | .ctrlRsvd01xx _ => "CTRL_RSVD_CMD_01xx"
  | .ctrlRsvd1xxx _ => "CTRL_RSVD_CMD_1xxx"
  | .rdCtrl => "RD_CTRL"
  | .rdStatus => "RD_STATUS"
  | .wrStatus _ => "WR_STATUS"
  | .rdLenLo => "RD_LEN_LO"
  | .rdLenHi => "RD_LEN_HI"
  | .wrLenLo _ => "WR_LEN_LO"
  | .wrLenHi _ => "WR_LEN_HI"
  | .rdDigest _ => "RD_DIGEST"
  | .wrDigest _ _ => "WR_DIGEST"
  | .rdRsvd20 _ => "RD_RSVD_0x20"
  | .wrRsvd20 _ _ => "WR_RSVD_0x20"
  | .rdMsg _ => "RD_MSG"
  | .wrMsg _ _ => "WR_MSG"
  | .rdRsvd80 _ => "RD_RSVD_0x80"
  | .wrRsvd80 _ _ => "WR_RSVD_0x80"
  | .pad1 => "PAD1"
  | .save => "SAVE"
  | .stepR1 _ => "STEP_R1"
  | .stepR2 _ => "STEP_R2"
  | .stepR3 _ => "STEP_R3"
  | .ffwd => "FFWD"
  | .pad2 => "PAD2"
  | .idle => "IDLE"
  | .uopRsvd34 _ => "UOP_RSVD_0x34_0x37"
  | .uopRsvd38 _ => "UOP_RSVD_0x38_0x3B"
  | .uopRsvd3C _ => "UOP_RSVD_0x3C_0x3D"
  | .uopRsvd3E => "UOP_RSVD_0x3E"

end Sys2Proof
end

