-- ==== Sys2Proof/Machine/Fetch.lean ====
section
/-! DEFINITION. What a step finds to do: the next element of the interleaving (spec/20_memory.md R58), the micro-op the
engine's counter selects (spec/42_compression.md R157), and a host access by byte offset (spec/20_memory.md R52). -/

namespace Sys2Proof.Machine

/-- The micro-op of the engine's turn (R157): the one UOP encodes while PHASE = BUSY, none (IDLE) otherwise; none while
RST is asserted (R251). Log entry 7. -/
def nextMicroOp (s : State) : Instr := if s.RST = false ∧ s.PHASE = .busy then decodeUop s.UOP else .idle

/-- The transaction word of a host access of `size` bytes at byte offset `off` (R9: `MemWrite(MD4CE_BASE + off, 4, v)` is
`BusWrite(off, v)`); a read drives no data. -/
def memTxn (we : Bool) (off : Nat) (data : Word) : BitVec 39 :=
  busWord we (BitVec.ofNat 6 (off / 4)) (if we then data else 0)

/-- The RST input takes a level (R251): asserting it loads the values of R250, and the release starts from them. -/
def applyRst (level : Bool) (s : State) : State :=
  if level ∨ s.RST then { resetRegs s with RST := level } else s

/-- The next element of the interleaving. With none left the engine takes its turn (R260; log entry 2). -/
def fetch (s : State) : Fetched :=
  match s.events with
  | [] => .instr (nextMicroOp s) s
  | .engine :: rest => .instr (nextMicroOp s) { s with events := rest }
  | .bus t :: rest => .instr (decodeBus t) { s with events := rest }
  | .rst level :: rest => .pin level { s with events := rest }
  | .mem we off size data :: rest =>
    if 256 ≤ off then .refuse .outsideWindow
    else if size = 4 ∧ off % 4 = 0 then .instr (decodeBus (memTxn we off data)) { s with events := rest }
    else .refuse .narrowAccess

end Sys2Proof.Machine
end

