-- ==== Sys2Proof/Machine/Step.lean ====
section
/-! DEFINITION. One step of the machine, and placing an instruction so that the next step runs it. -/

namespace Sys2Proof.Machine

/-- One transition of the interleaving (spec/00_scope.md R10, spec/20_memory.md R58). -/
def step (s : State) : Host.Outcome State Fault Refusal :=
  match fetch s with
  | .instr i s' => exec i s'
  | .pin level s' => .next (applyRst level s')
  | .refuse r => .refused r

/-- `s` with the instruction whose bits are `w` placed to run next (log entry 5). A BUS word is the host's next access. A
micro-op is what UOP selects on the engine's turn, which takes PHASE = BUSY unless it is IDLE, and RST released. -/
def State.withFetchWord (s : State) (nbits w : Nat) : State :=
  match decodeTableWord nbits w with
  | none => s
  | some i =>
    match encode i with
    | .bus _ => { s with events := .bus (BitVec.ofNat 39 w) :: s.events }
    | .uop u =>
      { s with UOP := u, PHASE := if u = 0x3F then s.PHASE else .busy, RST := false, events := .engine :: s.events }

end Sys2Proof.Machine
end

