-- ==== Sys2Proof/Config.lean ====
section
/-! DEFINITION. The two parameters spec/00_scope.md R5 leaves OPEN: only the host platform fixes them,
so they have no body here and a claim holds whatever they are. -/

namespace Sys2Proof

/-- `MD4CE_BASE` of instance `k`: where the platform maps that instance's register window (R5, R51, D4). -/
opaque Config.md4ceBase : Nat → Nat

/-- `MD4CE_INSTANCES`: how many independent engines the platform holds (R5, R62, D23). -/
opaque Config.md4ceInstances : Nat

end Sys2Proof
end

