-- ==== Sys2Proof/Machine/Platform.lean ====
section
/-! DEFINITION. Several instances on one platform (spec/20_memory.md R51, R62; spec/60_exceptions.md R230): each has its own
state and its own window, and nothing is shared. -/

namespace Sys2Proof.Machine

/-- The instances of a platform, by number. -/
abbrev Platform := List State

/-- All `MD4CE_INSTANCES` instances after reset (R5, R250). -/
def platformReset : Platform := List.replicate Config.md4ceInstances State.reset

/-- One step of instance k; a number with no instance behind it does nothing. -/
def stepInstance (k : Nat) (p : Platform) : Host.Outcome Platform Fault Refusal :=
  match p[k]? with
  | none => .next p
  | some s =>
    match step s with
    | .next s' => .next (p.set k s')
    | .fault r => .fault r
    | .refused r => .refused r

/-- The window of instance k holds the host address: MD4CE_BASE to MD4CE_BASE + 0xFF (R51). -/
def windowHolds (k addr : Nat) : Bool := Config.md4ceBase k ≤ addr && addr < Config.md4ceBase k + 256

/-- An access of `size` bytes from `addr` on touches a byte of the window of instance k. -/
def windowTouched (k addr size : Nat) : Bool := addr < Config.md4ceBase k + 256 && Config.md4ceBase k < addr + size

/-- A host access at an address of the host's address space (R9), after what the host issued before (R58). Routing by the start
address is the model's choice (DESIGN CHOICE, log entry 13): the access waits at the instance whose window holds that address, and
its own fetch refuses it if it is not one aligned word (R52). An access that starts in no window and reaches into one is no aligned
word of it and is refused here (R52: a model refuses it rather than guessing); one that touches no window reaches no instance. -/
def hostIssues (we : Bool) (addr size : Nat) (data : Word) (p : Platform) : Host.Outcome Platform Fault Refusal :=
  match (List.range p.length).find? (fun k => windowHolds k addr) with
  | some k => .next (p.modify k fun s => { s with events := s.events ++ [.mem we (addr - Config.md4ceBase k) size data] })
  | none => if (List.range p.length).any (fun k => windowTouched k addr size) then .refused .narrowAccess else .next p

end Sys2Proof.Machine
end

