-- ==== Sys2Proof/Machine/Message.lean ====
section
/-! DEFINITION. The message level: the padded message (spec/41_padding.md R130), block compression as one function and the
digest (spec/42_compression.md R159), and the host procedure for one digest (spec/43_host_interface.md R200). -/

namespace Sys2Proof.Machine

/-! ### Padding on the whole message (R130, R131) -/

/-- Eight bytes, least significant first (R130). -/
def le64 (v : BitVec 64) : List Byte := (List.range 8).map fun k => v.extractLsb' (8 * k) 8

/-- The number of zero bytes of the padding: the least z with (L + 1 + z) mod 64 = 56 (R130). -/
def padZeros (len : Nat) : Nat := (119 - len % 64) % 64

/-- P(m) (R130). -/
def padMessage (m : List Byte) : List Byte :=
  m ++ [0x80] ++ List.replicate (padZeros m.length) 0x00 ++ le64 (BitVec.ofNat 64 (8 * m.length))

/-- N(L), the number of blocks of the padded message (R131). -/
def blockCount (len : Nat) : Nat := (len + 8) / 64 + 1

/-- `le32(m, o)` (R200): the little-endian word at byte offset o. -/
def le32 (m : List Byte) (o : Nat) : Word :=
  wordOfBytes (m.getD o 0) (m.getD (o + 1) 0) (m.getD (o + 2) 0) (m.getD (o + 3) 0)

/-- Block b of a byte sequence, read as sixteen words (R53). -/
def blockOf (p : List Byte) (b : Nat) : MsgBuf := Vector.ofFn fun k => le32 p (64 * b + 4 * k.val)

/-! ### Compression and the digest (R159, R55) -/

/-- ROUNDS(h, x): the 48 steps in order (R159). -/
def rounds (h : Quad) (x : MsgBuf) : Quad :=
  [Round.r1, Round.r2, Round.r3].foldl (fun q r => (List.finRange 16).foldl (fun q i => q.roundStep r i x) q) h

/-- COMPRESS(h, x) = h + ROUNDS(h, x), word by word (R159). -/
def compress (h : Quad) (x : MsgBuf) : Quad := h.add (rounds h x)

/-- The running state after all blocks of P(m), from the IV (R159). -/
def md4State (m : List Byte) : Quad :=
  (List.range (blockCount m.length)).foldl (fun h b => compress h (blockOf (padMessage m) b)) iv

/-- The sixteen bytes of a running state: A, B, C, D, each least significant byte first (R55). -/
def quadBytes (q : Quad) : List Byte := le32bytes q.a ++ le32bytes q.b ++ le32bytes q.c ++ le32bytes q.d

/-- The MD4 digest of a message (R159, R55). -/
def md4 (m : List Byte) : List Byte := quadBytes (md4State m)

/-- The digest as the window shows it: d[4n + k] = DIGESTn[8k+7 : 8k] (R199). -/
def digestBytes (s : State) : List Byte := (List.finRange 4).flatMap fun n => le32bytes (digestView n s)

/-! ### The host procedure (R200) -/

/-- One full block: sixteen MSG writes, then BLOCK. -/
def blockWrites (m : List Byte) (b : Nat) : List (BitVec 39) :=
  (List.finRange 16).map (fun k => busWrite (.msg k) (le32 m (64 * b + 4 * k.val))) ++ [busWrite .ctrl 0x2]

/-- The command word of FINAL n: 0x3 + (n << 8) (R200). -/
def finalWord (n : Nat) : Word := BitVec.ofNat 32 (0x3 + n * 2 ^ 8)

/-- The tail: MSG0 to MSG((n+3) div 4 - 1), then FINAL n. The bytes past the end of the message are `junk` (R200: they "may
have any value"). -/
def tailWrites (m junk : List Byte) : List (BitVec 39) :=
  let n := m.length % 64
  ((List.finRange 16).filter fun k => k.val < (n + 3) / 4).map
    (fun k => busWrite (.msg k) (le32 (m ++ junk) (m.length - n + 4 * k.val))) ++ [busWrite .ctrl (finalWord n)]

/-- Every write of HASH(m), in order (R200): INIT, the blocks, the tail. -/
def hashWrites (m junk : List Byte) : List (BitVec 39) :=
  [busWrite .ctrl 0x1] ++ (List.range (m.length / 64)).flatMap (blockWrites m) ++ tailWrites m junk

/-- The micro-ops of an accepted FINAL n (R156). -/
def finalMicroOps (n : Nat) : Nat := if n ≤ 55 then 51 else 102

/-- WAIT in the interleaving where the engine runs k micro-ops before the host's read of STATUS (R79, R156). -/
def waitEvents (k : Nat) : List Event := List.replicate k .engine ++ [.bus (busRead .status)]

/-- HASH(m) with every WAIT answered by its first read of STATUS, then the four reads of DIGEST (R200; log entry 17). -/
def hashEvents (m junk : List Byte) : List Event :=
  [.bus (busWrite .ctrl 0x1)] ++
    (List.range (m.length / 64)).flatMap (fun b => (blockWrites m b).map .bus ++ waitEvents 50) ++
    (tailWrites m junk).map .bus ++ waitEvents (finalMicroOps (m.length % 64)) ++
    (List.finRange 4).map (fun n => .bus (busRead (.digest n)))

end Sys2Proof.Machine
end

