-- ==== Sys2Proof/Safety.lean ====
section
/-! DEFINITION. The terms claims use: the invariants of spec/10_state.md R31, the runs of one instance, and the end of a run
and what it delivers (spec/43_host_interface.md R202, spec/60_exceptions.md R226). -/

namespace Sys2Proof.Machine

/-! ### Invariants -/

/-- The invariants I1 to I7 of R31. -/
structure SpecInv (s : State) : Prop where
  /-- I1. -/
  busyIffMicroOp : s.PHASE = .busy ↔ s.UOP ≠ 0x3F
  /-- I2. -/
  lenBounded : s.LEN.toNat < 2 ^ 61
  /-- I3. -/
  need2Tail : s.NEED2 = true → s.FIN = true ∧ 56 ≤ s.NB.toNat
  /-- I4. -/
  uopLegal : ¬(0x34 ≤ s.UOP.toNat ∧ s.UOP.toNat ≤ 0x3E)
  /-- I5. -/
  doneFinal : s.PHASE = .done → s.FIN = true
  /-- I6. -/
  tooLargeIffError : s.ERR_TOOLARGE = true ↔ s.PHASE = .error
  /-- I7. -/
  wholeBlocks : s.PHASE = .ready ∨ s.PHASE = .error → s.LEN.toNat % 64 = 0

/-- R31 together with the model's own facts that make it inductive (log entry 18): what a BLOCK in progress and a pending PAD1
are, and that a held RST holds the state of R250 (R251). -/
structure EngineInv (s : State) : Prop extends SpecInv s where
  /-- A BLOCK in progress has counted whole blocks (R183). -/
  blockInProgress : s.PHASE = .busy → s.FIN = false → s.LEN.toNat % 64 = 0
  /-- PAD1 is pending only for a FINAL (R184). -/
  pad1OfFinal : s.UOP = 0x32 → s.FIN = true
  /-- While RST is asserted every register holds its value of R250 (R251). -/
  heldInReset : s.RST = true → s = resetRegs s

/-! ### Runs -/

/-- The outcome of running a whole interleaving from a state. -/
def runEvents (evs : List Event) (s : State) : Host.Outcome State Fault Refusal :=
  Sys2Proof.core.run evs.length { s with events := evs }

/-- A state reached from reset by some interleaving, whatever it is (R58). -/
def Reachable (s : State) : Prop := ∃ (evs : List Event) (k : Nat), Sys2Proof.core.run k { State.reset with events := evs } = .next s

/-- `n` turns of the engine with no host access between them. -/
def engineTurns (n : Nat) (s : State) : Host.Outcome State Fault Refusal := runEvents (List.replicate n .engine) s

/-- The element is a write of the host. -/
def Event.isWrite : Event → Bool
  | .bus t => busWe t
  | .mem we _ _ _ => we
  | .engine | .rst _ => false

/-- The transaction words of the writes in an interleaving, in order. -/
def writesOf (evs : List Event) : List (BitVec 39) :=
  evs.filterMap fun e => match e with
    | .bus t => if busWe t then some t else none
    | .mem _ _ _ _ | .engine | .rst _ => none

/-- The interleaving holds only port accesses and engine turns. -/
def portOnly (evs : List Event) : Bool :=
  evs.all fun e => match e with
    | .bus _ | .engine => true
    | .mem _ _ _ _ | .rst _ => false

/-- The element has a meaning: an access by address is one aligned word of the window (R52). -/
def Event.served : Event → Bool
  | .mem _ off size _ => size == 4 && off % 4 == 0 && decide (off < 256)
  | .bus _ | .engine | .rst _ => true

/-! ### Unending runs and fairness (R260) -/

/-- An unending interleaving: a host that goes on for ever, a WAIT loop among them, beside the engine. Like a finite one it is
placed in State.events, as far as a run reads it. -/
abbrev Schedule := Nat → Event

/-- The outcome of the first n elements of a schedule. -/
def runSchedule (σ : Schedule) (n : Nat) (s : State) : Host.Outcome State Fault Refusal := runEvents ((List.range n).map σ) s

/-- The fairness of R260, an assumption on schedules and no bound: wherever the engine is BUSY, a later point of the run is its
turn, or no longer BUSY. -/
def Fair (σ : Schedule) (s : State) : Prop :=
  ∀ k t, runSchedule σ k s = .next t → t.PHASE = .busy →
    ∃ j u, k ≤ j ∧ runSchedule σ j s = .next u ∧ (u.PHASE ≠ .busy ∨ σ j = .engine)

/-- A host in WAIT (R79) that never leaves its loop: it does nothing but read STATUS, again and again. -/
structure Waits (σ : Schedule) : Prop where
  onlyPolls : ∀ k, σ k = .engine ∨ (∃ level, σ k = .rst level) ∨ σ k = .bus (busRead .status)
  pollsAgain : ∀ k, ∃ j, k ≤ j ∧ σ j = .bus (busRead .status)

/-! ### Waiting before writing (R254) -/

/-- The host waits (R254): every write of the interleaving takes effect in a state that is not BUSY. -/
def HostWaits : List Event → State → Prop
  | [], _ => True
  | e :: es, s =>
    (e.isWrite = true → s.PHASE ≠ .busy) ∧ ∀ s', step { s with events := [e] } = .next s' → HostWaits es s'

/-! ### The end of a run (R202) -/

/-- No error flag is set: STATUS bits [4:2] are 0 (R226). -/
def noErrors (s : State) : Bool := (statusWord s).extractLsb' 2 3 == 0

/-- The engine has no enabled step: it is not BUSY, or its UOP is reserved (R157, R231). R202 lists a reserved UOP here and says
elsewhere that a BUSY state is never an end and a stuck engine no final state; the model follows the list here and the second in
runOutcome (DESIGN CHOICE, log entry 21). -/
def engineHasNoStep (s : State) : Bool :=
  s.PHASE != .busy || (0x34 ≤ s.UOP.toNat && s.UOP.toNat ≤ 0x3E)

/-- The host program has no access left. -/
def hostHasNoAccess (s : State) : Bool :=
  s.events.all fun e => match e with
    | .bus _ | .mem _ _ _ _ => false
    | .engine | .rst _ => true

/-- The run ends here: both conditions of R202's list hold (log entry 21 for a stuck engine). -/
def runEnded (s : State) : Bool := hostHasNoAccess s && engineHasNoStep s

/-- What a run delivers (R202). -/
inductive RunOutcome where
  | digest (bytes : List Byte)
  | error
  | notOver
deriving DecidableEq, Repr

/-- The outcome of R202: an error flag or ERROR carries no digest; READY has none yet; a BUSY state delivers nothing, a stuck one
too, though runEnded holds of it (DESIGN CHOICE, log entry 21). -/
def runOutcome (s : State) : RunOutcome :=
  match s.PHASE with
  | .busy => .notOver
  | .error => .error
  | .done => if noErrors s then .digest (digestBytes s) else .error
  | .ready => if noErrors s then .notOver else .error

end Sys2Proof.Machine
end

