-- ==== Sys2Proof/Certificates/Slice0/Obligations.lean ====
section
/-! DEFINITION. The statements for the provers, from the numbered rules of spec/. Unless a statement says otherwise RST is released
(RST = false); what happens while it is asserted is RstHoldsTheResetState. -/

open Sys2Proof Sys2Proof.Machine

/-! ### Encoding -/

/-- Words written out from the encodings of R70 to R76 and R79, each with the instruction it stands for. -/
def Obligations.WrittenOutWordsDecode : Prop :=
  decodeBus 0x4000000000 = .nop 0x0 ∧ decodeBus 0x4000000001 = .init 0x1 ∧ decodeBus 0x4000000002 = .block 0x2 ∧
  decodeBus 0x4000003803 = .final 0x3803 ∧ decodeBus 0x4000000007 = .ctrlRsvd01xx 0x7 ∧
  decodeBus 0x400000000C = .ctrlRsvd1xxx 0xC ∧ decodeBus 0x0100000000 = .rdStatus ∧
  decodeBus 0x41FFFFFFFF = .wrStatus 0xFFFFFFFF ∧ decodeBus 0x0700000000 = .rdDigest 3 ∧ decodeBus 0x0F00000000 = .rdRsvd20 7 ∧
  decodeBus 0x1E00000000 = .rdMsg 14 ∧ decodeBus 0x5F61616161 = .wrMsg 15 0x61616161 ∧ decodeBus 0x2000000000 = .rdRsvd80 0 ∧
  decodeBus 0x7F12345678 = .wrRsvd80 31 0x12345678 ∧
  decodeUop 0x0F = .stepR1 15 ∧ decodeUop 0x10 = .stepR2 0 ∧ decodeUop 0x2F = .stepR3 15 ∧ decodeUop 0x30 = .ffwd ∧
  decodeUop 0x31 = .save ∧ decodeUop 0x32 = .pad1 ∧ decodeUop 0x33 = .pad2 ∧ decodeUop 0x3F = .idle ∧
  decodeUop 0x37 = .uopRsvd34 3 ∧ decodeUop 0x38 = .uopRsvd38 0 ∧ decodeUop 0x3D = .uopRsvd3C 1 ∧ decodeUop 0x3E = .uopRsvd3E

/-- Decoding an encoded well-formed instruction gives it back, as a word and as bytes: no operand bit is dropped (R70 to R76). -/
def Obligations.DecodeInvertsEncode : Prop :=
  ∀ i : Instr, i.wf = true → decode (encode i) = i ∧ decodeBytes (encodeBytes i) = .ok i

/-- Every decoded instruction is well formed, and encoding it gives the word back: every write, every read with the data bits
R70 gives it, every micro-op value. -/
def Obligations.EncodeInvertsDecode : Prop :=
  (∀ t : BitVec 39, (decodeBus t).wf = true ∧ (busWe t = true ∨ busData t = 0 → encode (decodeBus t) = .bus t)) ∧
  ∀ u : BitVec 6, (decodeUop u).wf = true ∧ encode (decodeUop u) = .uop u

/-- R78: every 39-bit T matches exactly one row of the table and every 6-bit UOP exactly one, the row of the instruction it decodes
to; the register is selected by OFF, the command of a CTRL write by WDATA[3:0]; reserved UOP values have the stuck outcome. -/
def Obligations.EveryWordMatchesExactlyItsRow : Prop :=
  (∀ t : BitVec 39, (busRows.filter (·.matches t)).map (·.mnemonic) = [(decodeBus t).mnemonic]) ∧
  (∀ u : BitVec 6, (uopRows.filter (·.matches u)).map (·.mnemonic) = [(decodeUop u).mnemonic]) ∧
  (∀ t t' : BitVec 39, busWe t = busWe t' → busOff t = busOff t' → ctrlCmd (busData t) = ctrlCmd (busData t') →
    (decodeBus t).mnemonic = (decodeBus t').mnemonic) ∧
  ∀ u : BitVec 6, 0x34 ≤ u.toNat → u.toNat ≤ 0x3E → ∀ s : State, exec (decodeUop u) s = .fault .engineStuck

/-- Bytes that hold no code are rejected by name: five bytes with bit 39 set, one byte with bit 6 or 7 set, any other length. The byte
layout is the model's choice (log entry 12). -/
def Obligations.BytesThatHoldNoCodeAreRejected : Prop :=
  (∀ b0 b1 b2 b3 b4 : Byte, 128 ≤ b4.toNat → decodeBytes [b0, b1, b2, b3, b4] = .error .busTooWide) ∧
  (∀ b : Byte, 64 ≤ b.toNat → decodeBytes [b] = .error .uopTooWide) ∧
  ∀ bs : List Byte, bs.length ≠ 1 → bs.length ≠ 5 → decodeBytes bs = .error .badLength

/-! ### Reset and RST -/

/-- R250: the state after reset, that it satisfies R31, that STATUS and DIGEST0 read as R250 says, and that INIT produces it. -/
def Obligations.ResetStateIsR250 : Prop :=
  State.reset.A = 0x67452301 ∧ State.reset.B = 0xEFCDAB89 ∧ State.reset.C = 0x98BADCFE ∧ State.reset.D = 0x10325476 ∧
  State.reset.AA = 0 ∧ State.reset.BB = 0 ∧ State.reset.CC = 0 ∧ State.reset.DD = 0 ∧ (∀ j : Fin 16, State.reset.X[j] = 0) ∧
  State.reset.LEN = 0 ∧ State.reset.PHASE = .ready ∧ State.reset.UOP = 0x3F ∧ State.reset.FIN = false ∧
  State.reset.NEED2 = false ∧ State.reset.NB = 0 ∧ State.reset.ERR_CMD = false ∧ State.reset.ERR_BUSY = false ∧
  State.reset.ERR_TOOLARGE = false ∧ SpecInv State.reset ∧
  exec .rdStatus State.reset = .next { State.reset with reads := [0x003F0000] } ∧
  exec (.rdDigest 0) State.reset = .next { State.reset with reads := [0x67452301] } ∧
  ∀ (v : Word) (s : State), s.RST = false → s.PHASE ≠ .busy →
    exec (.init v) s = .next { State.reset with events := s.events, reads := s.reads }

/-- The read values right after reset, register by register (the last column of R35). -/
def Obligations.RegistersReadAfterReset : Prop :=
  exec .rdCtrl State.reset = .next { State.reset with reads := [0x00000000] } ∧
  exec .rdStatus State.reset = .next { State.reset with reads := [0x003F0000] } ∧
  exec .rdLenLo State.reset = .next { State.reset with reads := [0x00000000] } ∧
  exec .rdLenHi State.reset = .next { State.reset with reads := [0x00000000] } ∧
  exec (.rdDigest 0) State.reset = .next { State.reset with reads := [0x67452301] } ∧
  exec (.rdDigest 1) State.reset = .next { State.reset with reads := [0xEFCDAB89] } ∧
  exec (.rdDigest 2) State.reset = .next { State.reset with reads := [0x98BADCFE] } ∧
  exec (.rdDigest 3) State.reset = .next { State.reset with reads := [0x10325476] } ∧
  (∀ j, exec (.rdMsg j) State.reset = .next { State.reset with reads := [0x00000000] }) ∧
  (∀ k, exec (.rdRsvd20 k) State.reset = .next { State.reset with reads := [0x00000000] }) ∧
  ∀ k, exec (.rdRsvd80 k) State.reset = .next { State.reset with reads := [0x00000000] }

/-- R251: asserting RST loads the values of R250 in any phase; while it is asserted the registers are held, the engine performs no
micro-op, host writes have no effect and set no flag, and host reads return 0; after its release the state is that of R250. -/
def Obligations.RstHoldsTheResetState : Prop :=
  (∀ (s : State) (rest : List Event), s.events = .rst true :: rest →
    step s = .next { State.reset with RST := true, events := rest, reads := s.reads }) ∧
  (∀ s : State, s.RST = true → s = resetRegs s →
    (∀ t, step s = .next t → t = resetRegs t) ∧
    (∀ rest, s.events = .engine :: rest → step s = .next { s with events := rest }) ∧
    (∀ t rest, s.events = .bus t :: rest → busWe t = true → step s = .next { s with events := rest }) ∧
    (∀ t rest, s.events = .bus t :: rest → busWe t = false → step s = .next { s with events := rest, reads := 0 :: s.reads }) ∧
    (∀ rest, s.events = .rst false :: rest → step s = .next { State.reset with events := rest, reads := s.reads }))

/-! ### Commands -/

/-- R180: every CTRL write while BUSY, whatever its command word, sets ERR_BUSY and changes nothing else. -/
def Obligations.CtrlWriteWhileBusySetsErrBusy : Prop :=
  ∀ (v : Word) (s : State), s.RST = false → s.PHASE = .busy →
    exec (decodeBus (busWrite .ctrl v)) s = .next { s with ERR_BUSY := true }

/-- R181: NOP is the CTRL write with CMD = 0x0; not BUSY, it changes no state; v[31:4] is ignored. -/
def Obligations.NopChangesNothing : Prop :=
  ∀ v : Word, (ctrlCmd v = 0x0 → decodeBus (busWrite .ctrl v) = .nop v) ∧ ∀ s : State, s.RST = false →
    (s.PHASE ≠ .busy → exec (.nop v) s = .next s) ∧
    (s.PHASE = .busy → exec (.nop v) s = .next { s with ERR_BUSY := true })

/-- R182: INIT is the CTRL write with CMD = 0x1; in READY, DONE and ERROR it writes every register, and the state is that of
reset; no other host access leads out of DONE or ERROR. -/
def Obligations.InitStartsANewMessage : Prop :=
  ∀ v : Word, (ctrlCmd v = 0x1 → decodeBus (busWrite .ctrl v) = .init v) ∧ ∀ s : State, s.RST = false →
    (s.PHASE ≠ .busy → exec (.init v) s = .next
      { s with
        A := 0x67452301, B := 0xEFCDAB89, C := 0x98BADCFE, D := 0x10325476, AA := 0, BB := 0, CC := 0, DD := 0,
        X := Vector.replicate 16 0, LEN := 0, PHASE := .ready, UOP := 0x3F, FIN := false, NEED2 := false, NB := 0,
        ERR_CMD := false, ERR_BUSY := false, ERR_TOOLARGE := false } ∧
      exec (.init v) s = .next { State.reset with events := s.events, reads := s.reads }) ∧
    (s.PHASE = .busy → exec (.init v) s = .next { s with ERR_BUSY := true }) ∧
    (s.PHASE = .done ∨ s.PHASE = .error → ∀ i t, i.isMicroOp = false → exec i s = .next t → t.PHASE ≠ s.PHASE →
      ∃ w, i = .init w)

/-- R183: BLOCK is the CTRL write with CMD = 0x2. It is accepted in READY when LEN + 64 < 2^61, then counting 64 bytes and starting
at SAVE; it raises ErrTooLarge in READY past the limit, ErrCmd in DONE and ERROR, ErrBusy in BUSY. -/
def Obligations.BlockCommandOutcomes : Prop :=
  ∀ v : Word, (ctrlCmd v = 0x2 → decodeBus (busWrite .ctrl v) = .block v) ∧ ∀ s : State, s.RST = false →
    (s.PHASE = .ready → s.LEN.toNat + 64 < 2 ^ 61 → exec (.block v) s = .next
      { s with LEN := s.LEN + 64, FIN := false, NB := 0, NEED2 := false, UOP := 0x31, PHASE := .busy }) ∧
    (s.PHASE = .ready → 2 ^ 61 ≤ s.LEN.toNat + 64 → exec (.block v) s = .next
      { s with ERR_TOOLARGE := true, PHASE := .error }) ∧
    (s.PHASE = .done ∨ s.PHASE = .error → exec (.block v) s = .next { s with ERR_CMD := true }) ∧
    (s.PHASE = .busy → exec (.block v) s = .next { s with ERR_BUSY := true })

/-- R184: FINAL is the CTRL write with CMD = 0x3 and n = v[13:8]. It is accepted in READY when LEN + n < 2^61, then counting n bytes,
latching n in NB and starting at PAD1; its refusals are those of BLOCK with n. -/
def Obligations.FinalCommandOutcomes : Prop :=
  ∀ v : Word, (ctrlCmd v = 0x3 → decodeBus (busWrite .ctrl v) = .final v) ∧ ∀ (n : BitVec 6) (s : State),
    n = v.extractLsb' 8 6 → s.RST = false →
    (s.PHASE = .ready → s.LEN.toNat + n.toNat < 2 ^ 61 → exec (.final v) s = .next
      { s with LEN := s.LEN + n.setWidth 64, FIN := true, NB := n, NEED2 := false, UOP := 0x32, PHASE := .busy }) ∧
    (s.PHASE = .ready → 2 ^ 61 ≤ s.LEN.toNat + n.toNat → exec (.final v) s = .next
      { s with ERR_TOOLARGE := true, PHASE := .error }) ∧
    (s.PHASE = .done ∨ s.PHASE = .error → exec (.final v) s = .next { s with ERR_CMD := true }) ∧
    (s.PHASE = .busy → exec (.final v) s = .next { s with ERR_BUSY := true })

/-- R185: CMD = 0x4 to 0x7 and 0x8 to 0xF are the two reserved rows; not BUSY they set ERR_CMD and change nothing else, BUSY they
set ERR_BUSY instead. -/
def Obligations.ReservedCommandsSetErrCmd : Prop :=
  ∀ v : Word,
    (0x4 ≤ (ctrlCmd v).toNat → (ctrlCmd v).toNat ≤ 0x7 → decodeBus (busWrite .ctrl v) = .ctrlRsvd01xx v) ∧
    (0x8 ≤ (ctrlCmd v).toNat → decodeBus (busWrite .ctrl v) = .ctrlRsvd1xxx v) ∧ ∀ s : State, s.RST = false →
    (s.PHASE ≠ .busy → exec (.ctrlRsvd01xx v) s = .next { s with ERR_CMD := true } ∧
      exec (.ctrlRsvd1xxx v) s = .next { s with ERR_CMD := true }) ∧
    (s.PHASE = .busy → exec (.ctrlRsvd01xx v) s = .next { s with ERR_BUSY := true } ∧
      exec (.ctrlRsvd1xxx v) s = .next { s with ERR_BUSY := true })

/-- R186: two CTRL writes that agree in v[3:0], and in v[13:8] when the command is FINAL, have identical effects. -/
def Obligations.IgnoredCtrlBitsHaveNoEffect : Prop :=
  ∀ (v v' : Word) (s : State), v.extractLsb' 0 4 = v'.extractLsb' 0 4 →
    (v.extractLsb' 0 4 = 0x3 → v.extractLsb' 8 6 = v'.extractLsb' 8 6) →
    exec (decodeBus (busWrite .ctrl v)) s = exec (decodeBus (busWrite .ctrl v')) s

/-- R223: one CTRL write that is refused raises exactly one error, in the order BUSY, reserved CMD, phase, length. -/
def Obligations.ErrorPriorityOfOneCtrlWrite : Prop :=
  ∀ (v : Word) (add : Nat) (s : State), s.RST = false → add = (if ctrlCmd v = 0x2 then 64 else (v.extractLsb' 8 6).toNat) →
    (s.PHASE = .busy → exec (decodeBus (busWrite .ctrl v)) s = .next { s with ERR_BUSY := true }) ∧
    (s.PHASE ≠ .busy → 0x4 ≤ (ctrlCmd v).toNat → exec (decodeBus (busWrite .ctrl v)) s = .next { s with ERR_CMD := true }) ∧
    (s.PHASE = .done ∨ s.PHASE = .error → ctrlCmd v = 0x2 ∨ ctrlCmd v = 0x3 →
      exec (decodeBus (busWrite .ctrl v)) s = .next { s with ERR_CMD := true }) ∧
    (s.PHASE = .ready → ctrlCmd v = 0x2 ∨ ctrlCmd v = 0x3 → 2 ^ 61 ≤ s.LEN.toNat + add →
      exec (decodeBus (busWrite .ctrl v)) s = .next { s with ERR_TOOLARGE := true, PHASE := .error }) ∧
    (∀ j : Fin 16, s.PHASE = .busy → exec (decodeBus (busWrite (.msg j) v)) s = .next { s with ERR_BUSY := true })

/-! ### Register accesses -/

/-- R187, R197, R198: reads of CTRL and of the reserved offsets return 0 in every phase; writes at the reserved offsets change
nothing. -/
def Obligations.CtrlAndReservedOffsets : Prop :=
  decodeBus (busRead .ctrl) = .rdCtrl ∧
  (∀ (off : BitVec 6) (k : Fin 8) (v : Word), off = 0b001#3 ++ BitVec.ofFin (w := 3) k →
    decodeBus (busWord false off 0) = .rdRsvd20 k ∧ decodeBus (busWord true off v) = .wrRsvd20 k v) ∧
  (∀ (off : BitVec 6) (k : Fin 32) (v : Word), off = 0b1#1 ++ BitVec.ofFin (w := 5) k →
    decodeBus (busWord false off 0) = .rdRsvd80 k ∧ decodeBus (busWord true off v) = .wrRsvd80 k v) ∧
  ∀ s : State,
    exec .rdCtrl s = .next { s with reads := 0 :: s.reads } ∧
    (∀ k, exec (.rdRsvd20 k) s = .next { s with reads := 0 :: s.reads }) ∧
    (∀ k, exec (.rdRsvd80 k) s = .next { s with reads := 0 :: s.reads }) ∧
    (∀ k v, exec (.wrRsvd20 k v) s = .next s) ∧ ∀ k v, exec (.wrRsvd80 k v) s = .next s

/-- R34, R188, R189: RD_STATUS returns the word whose every field is that of R34 and changes nothing else; WR_STATUS changes
nothing. -/
def Obligations.StatusWordFields : Prop :=
  decodeBus (busRead .status) = .rdStatus ∧ (∀ v, decodeBus (busWrite .status v) = .wrStatus v) ∧
  (∀ (v : Word) (s : State), exec (.wrStatus v) s = .next s) ∧
  exec .rdStatus State.reset = .next { State.reset with reads := [0x003F0000] } ∧
  ∀ s : State, s.RST = false → ∃ w : Word, exec .rdStatus s = .next { s with reads := w :: s.reads } ∧
    (w.getLsbD 0 = true ↔ s.PHASE = .busy) ∧ (w.getLsbD 1 = true ↔ s.PHASE = .done) ∧
    w.getLsbD 2 = s.ERR_CMD ∧ w.getLsbD 3 = s.ERR_BUSY ∧ w.getLsbD 4 = s.ERR_TOOLARGE ∧ w.extractLsb' 5 3 = 0 ∧
    w.extractLsb' 8 2 = (match s.PHASE with | .ready => 0 | .busy => 1 | .done => 2 | .error => 3) ∧
    w.extractLsb' 10 6 = 0 ∧ w.extractLsb' 16 6 = s.UOP ∧ w.getLsbD 22 = s.FIN ∧ w.getLsbD 23 = s.NEED2 ∧
    w.extractLsb' 24 6 = s.NB ∧ w.extractLsb' 30 2 = 0

/-- R190, R192 and the value of R191: LEN is read as two halves in every phase, and writes to them change nothing; under I2 the
top three bits of LEN_HI read 0. -/
def Obligations.LengthRegisters : Prop :=
  decodeBus (busRead .lenLo) = .rdLenLo ∧ decodeBus (busRead .lenHi) = .rdLenHi ∧
  ∀ (v : Word) (s : State), decodeBus (busWrite .lenLo v) = .wrLenLo v ∧ decodeBus (busWrite .lenHi v) = .wrLenHi v ∧
    exec (.wrLenLo v) s = .next s ∧ exec (.wrLenHi v) s = .next s ∧
    (s.RST = false → ∃ lo hi : Word, exec .rdLenLo s = .next { s with reads := lo :: s.reads } ∧
      exec .rdLenHi s = .next { s with reads := hi :: s.reads } ∧ hi ++ lo = s.LEN ∧
      (s.LEN.toNat < 2 ^ 61 → hi.toNat < 2 ^ 29))

/-- R193, R194: DIGESTn reads A, B, C or D in READY and DONE and 0 in BUSY and ERROR; a write changes nothing. -/
def Obligations.DigestRegisters : Prop :=
  ∀ (n : Fin 4) (v : Word), decodeBus (busRead (.digest n)) = .rdDigest n ∧ decodeBus (busWrite (.digest n) v) = .wrDigest n v ∧
    ∀ s : State, exec (.wrDigest n v) s = .next s ∧ (s.RST = false →
      (s.PHASE = .ready ∨ s.PHASE = .done →
        exec (.rdDigest n) s = .next { s with reads := ([s.A, s.B, s.C, s.D][n]) :: s.reads }) ∧
      (s.PHASE = .busy ∨ s.PHASE = .error → exec (.rdDigest n) s = .next { s with reads := 0 :: s.reads }))

/-- R195, R196: MSGj reads X[j] unless BUSY, then 0; a write stores all 32 bits in X[j] and leaves every other word, unless BUSY,
where it sets ERR_BUSY and X stays. -/
def Obligations.MessageRegisters : Prop :=
  ∀ (j : Fin 16) (v : Word), decodeBus (busRead (.msg j)) = .rdMsg j ∧ decodeBus (busWrite (.msg j) v) = .wrMsg j v ∧
    ∀ s : State, s.RST = false →
      (s.PHASE ≠ .busy → exec (.rdMsg j) s = .next { s with reads := s.X[j] :: s.reads } ∧
        ∃ x : MsgBuf, exec (.wrMsg j v) s = .next { s with X := x } ∧ x[j] = v ∧ ∀ k : Fin 16, k ≠ j → x[k] = s.X[k]) ∧
      (s.PHASE = .busy → exec (.rdMsg j) s = .next { s with reads := 0 :: s.reads } ∧
        exec (.wrMsg j v) s = .next { s with ERR_BUSY := true })

/-- The frame of the host's accesses (R57): a read changes only what the host got back, by one word; of the writes, only CTRL writes
and MSG writes change anything, and a MSG write changes at most X[j] and ERR_BUSY. -/
def Obligations.HostAccessFrame : Prop :=
  ∀ (t : BitVec 39) (s : State), ∃ s', exec (decodeBus t) s = .next s' ∧
    (busWe t = false → ∃ w : Word, s' = { s with reads := w :: s.reads }) ∧
    (busWe t = true → s'.reads = s.reads ∧
      (busOff t ≠ 0b000000 → (busOff t).extractLsb' 4 2 ≠ 0b01 → s' = s) ∧
      (∀ j : Fin 16, (busOff t) = 0b01#2 ++ BitVec.ofFin (w := 4) j →
        s' = { s with X := s'.X, ERR_BUSY := s'.ERR_BUSY } ∧ ∀ k : Fin 16, k ≠ j → s'.X[k] = s.X[k]))

/-! ### Padding micro-ops -/

/-- R132: PAD1 keeps bytes 0 to n-1 of X, puts 0x80 at byte n and zeros behind it; for n ≤ 55 the words 14 and 15 are the bit length
and NEED2 is 0, for n ≥ 56 NEED2 is 1; SAVE is next; nothing else changes. -/
def Obligations.Pad1PadsTheTail : Prop :=
  decodeUop 0x32 = .pad1 ∧ ∀ (s : State) (n : Nat), n = s.NB.toNat →
    ∃ x : MsgBuf, exec .pad1 s = .next { s with X := x, NEED2 := decide (56 ≤ n), UOP := 0x31 } ∧
      (∀ j : Fin 64, j.val < n → x.byte j = s.X.byte j) ∧
      (∀ j : Fin 64, j.val = n → x.byte j = 0x80) ∧
      (∀ j : Fin 64, n < j.val → 56 ≤ n ∨ j.val < 56 → x.byte j = 0x00) ∧
      (n ≤ 55 → x[14] = (8 * s.LEN).extractLsb' 0 32 ∧ x[15] = (8 * s.LEN).extractLsb' 32 32)

/-- R133: PAD2 builds the length-only block, clears NEED2 and goes to SAVE; nothing else changes. -/
def Obligations.Pad2BuildsTheLengthBlock : Prop :=
  decodeUop 0x33 = .pad2 ∧ ∀ s : State, exec .pad2 s = .next
    { s with
      X := #v[0, 0, 0, 0, 0, 0, 0, 0, 0, 0, 0, 0, 0, 0, (8 * s.LEN).extractLsb' 0 32, (8 * s.LEN).extractLsb' 32 32]
      NEED2 := false, UOP := 0x31 }

/-! ### Compression micro-ops -/

/-- R150: SAVE copies A to D into AA to DD and goes to the first step; nothing else changes. -/
def Obligations.SaveCopiesTheState : Prop :=
  decodeUop 0x31 = .save ∧ ∀ s : State,
    exec .save s = .next { s with AA := s.A, BB := s.B, CC := s.C, DD := s.D, UOP := 0x00 }

/-- R151: STEP_R1, step i, by i mod 4, with F spelled out; one register and UOP change. -/
def Obligations.StepOfRoundOne : Prop :=
  ∀ i : Fin 16, decodeUop (BitVec.ofNat 6 i) = .stepR1 i ∧ ∀ s : State,
    (i.val % 4 = 0 → exec (.stepR1 i) s = .next { s with
      A := (s.A + ((s.B &&& s.C) ||| (~~~s.B &&& s.D)) + s.X[i]).rotateLeft 3, UOP := s.UOP + 1 }) ∧
    (i.val % 4 = 1 → exec (.stepR1 i) s = .next { s with
      D := (s.D + ((s.A &&& s.B) ||| (~~~s.A &&& s.C)) + s.X[i]).rotateLeft 7, UOP := s.UOP + 1 }) ∧
    (i.val % 4 = 2 → exec (.stepR1 i) s = .next { s with
      C := (s.C + ((s.D &&& s.A) ||| (~~~s.D &&& s.B)) + s.X[i]).rotateLeft 11, UOP := s.UOP + 1 }) ∧
    (i.val % 4 = 3 → exec (.stepR1 i) s = .next { s with
      B := (s.B + ((s.C &&& s.D) ||| (~~~s.C &&& s.A)) + s.X[i]).rotateLeft 19, UOP := s.UOP + 1 })

/-- R152: STEP_R2, step i, with G and K(1) spelled out and the word 4*(i mod 4) + (i div 4). -/
def Obligations.StepOfRoundTwo : Prop :=
  ∀ (i j : Fin 16), j.val = 4 * (i.val % 4) + i.val / 4 → decodeUop (BitVec.ofNat 6 (0x10 + i)) = .stepR2 i ∧ ∀ s : State,
    (i.val % 4 = 0 → exec (.stepR2 i) s = .next { s with
      A := (s.A + ((s.B &&& s.C) ||| (s.B &&& s.D) ||| (s.C &&& s.D)) + s.X[j] + 0x5A827999).rotateLeft 3, UOP := s.UOP + 1 }) ∧
    (i.val % 4 = 1 → exec (.stepR2 i) s = .next { s with
      D := (s.D + ((s.A &&& s.B) ||| (s.A &&& s.C) ||| (s.B &&& s.C)) + s.X[j] + 0x5A827999).rotateLeft 5, UOP := s.UOP + 1 }) ∧
    (i.val % 4 = 2 → exec (.stepR2 i) s = .next { s with
      C := (s.C + ((s.D &&& s.A) ||| (s.D &&& s.B) ||| (s.A &&& s.B)) + s.X[j] + 0x5A827999).rotateLeft 9, UOP := s.UOP + 1 }) ∧
    (i.val % 4 = 3 → exec (.stepR2 i) s = .next { s with
      B := (s.B + ((s.C &&& s.D) ||| (s.C &&& s.A) ||| (s.D &&& s.A)) + s.X[j] + 0x5A827999).rotateLeft 13, UOP := s.UOP + 1 })

/-- R153: STEP_R3, step i, with H and K(2) spelled out and the word of the 4-bit reversal of i. -/
def Obligations.StepOfRoundThree : Prop :=
  ∀ (i j : Fin 16), j.val = 8 * (i.val % 2) + 4 * (i.val / 2 % 2) + 2 * (i.val / 4 % 2) + i.val / 8 →
    decodeUop (BitVec.ofNat 6 (0x20 + i)) = .stepR3 i ∧ ∀ s : State,
    (i.val % 4 = 0 → exec (.stepR3 i) s = .next { s with
      A := (s.A + (s.B ^^^ s.C ^^^ s.D) + s.X[j] + 0x6ED9EBA1).rotateLeft 3, UOP := s.UOP + 1 }) ∧
    (i.val % 4 = 1 → exec (.stepR3 i) s = .next { s with
      D := (s.D + (s.A ^^^ s.B ^^^ s.C) + s.X[j] + 0x6ED9EBA1).rotateLeft 9, UOP := s.UOP + 1 }) ∧
    (i.val % 4 = 2 → exec (.stepR3 i) s = .next { s with
      C := (s.C + (s.D ^^^ s.A ^^^ s.B) + s.X[j] + 0x6ED9EBA1).rotateLeft 11, UOP := s.UOP + 1 }) ∧
    (i.val % 4 = 3 → exec (.stepR3 i) s = .next { s with
      B := (s.B + (s.C ^^^ s.D ^^^ s.A) + s.X[j] + 0x6ED9EBA1).rotateLeft 15, UOP := s.UOP + 1 })

/-- R154: FFWD adds each saved word on its own; with FIN and NEED2 it goes to PAD2 and stays BUSY, else it goes to IDLE with PHASE
DONE (FIN) or READY. -/
def Obligations.FfwdEndsTheBlock : Prop :=
  decodeUop 0x30 = .ffwd ∧ ∀ s : State,
    (s.FIN = true → s.NEED2 = true → exec .ffwd s = .next
      { s with A := s.A + s.AA, B := s.B + s.BB, C := s.C + s.CC, D := s.D + s.DD, UOP := 0x33 }) ∧
    (s.FIN = true → s.NEED2 = false → exec .ffwd s = .next
      { s with A := s.A + s.AA, B := s.B + s.BB, C := s.C + s.CC, D := s.D + s.DD, UOP := 0x3F, PHASE := .done }) ∧
    (s.FIN = false → exec .ffwd s = .next
      { s with A := s.A + s.AA, B := s.B + s.BB, C := s.C + s.CC, D := s.D + s.DD, UOP := 0x3F, PHASE := .ready })

/-- IDLE performs no micro-op (R157). -/
def Obligations.IdleChangesNothing : Prop := decodeUop 0x3F = .idle ∧ ∀ s : State, exec .idle s = .next s

/-- R231: with a reserved UOP the engine agent is stuck: its turn has no next state. Host accesses still take effect by their own
rules: a step whose next element is an access runs that access. -/
def Obligations.ReservedMicroOpsAreStuck : Prop :=
  (∀ s : State, (∀ k, exec (.uopRsvd34 k) s = .fault .engineStuck) ∧ (∀ k, exec (.uopRsvd38 k) s = .fault .engineStuck) ∧
    (∀ k, exec (.uopRsvd3C k) s = .fault .engineStuck) ∧ exec .uopRsvd3E s = .fault .engineStuck) ∧
  ∀ (s : State) (rest : List Event), 0x34 ≤ s.UOP.toNat → s.UOP.toNat ≤ 0x3E → s.PHASE = .busy → s.RST = false →
    (s.events = .engine :: rest → step s = .fault .engineStuck) ∧
    ∀ t, s.events = .bus t :: rest → step s = exec (decodeBus t) { s with events := rest } ∧ ∃ s', step s = .next s' ∧ s'.UOP = s.UOP

/-- R155: the next-UOP function, over every value of UOP while BUSY. -/
def Obligations.NextUopFunction : Prop :=
  ∀ (s t : State) (rest : List Event), s.RST = false → s.PHASE = .busy → s.events = .engine :: rest → step s = .next t →
    (s.UOP.toNat < 0x30 → t.UOP = s.UOP + 1) ∧
    (s.UOP = 0x30 → t.UOP = if s.FIN = true ∧ s.NEED2 = true then 0x33 else 0x3F) ∧
    (s.UOP = 0x31 → t.UOP = 0x00) ∧ (s.UOP = 0x32 → t.UOP = 0x31) ∧ (s.UOP = 0x33 → t.UOP = 0x31) ∧
    (s.UOP = 0x3F → t = { s with events := rest })

/-! ### The step -/

/-- One step runs the decoded instruction (R10, R58, R157): a port access runs what its word decodes to; the engine's turn runs what
UOP encodes while BUSY, and nothing otherwise; with no event left it is the engine's turn (log entry 2). Only the list of events moves on. -/
def Obligations.StepRunsTheDecodedInstruction : Prop :=
  ∀ s : State,
    (∀ t rest, s.events = .bus t :: rest → step s = exec (decodeBus t) { s with events := rest }) ∧
    (∀ rest, s.RST = false → s.PHASE = .busy → s.events = .engine :: rest →
      step s = exec (decodeUop s.UOP) { s with events := rest }) ∧
    (∀ rest, s.PHASE ≠ .busy → s.events = .engine :: rest → step s = .next { s with events := rest }) ∧
    (s.RST = false → s.PHASE = .busy → s.events = [] → step s = exec (decodeUop s.UOP) s) ∧
    (s.PHASE ≠ .busy → s.events = [] → step s = .next s)

/-- A host access by byte offset and size (R9, R52): one aligned word is the BUS access; any narrower, wider or misaligned access is
refused; an offset outside the window is no access to the engine. -/
def Obligations.HostAccessByAddress : Prop :=
  ∀ (s : State) (we : Bool) (off size : Nat) (v : Word) (rest : List Event), s.events = .mem we off size v :: rest →
    (∀ o : BitVec 6, size = 4 → off = 4 * o.toNat →
      step s = exec (decodeBus (busWord we o (if we then v else 0))) { s with events := rest }) ∧
    (off < 256 → size ≠ 4 ∨ off % 4 ≠ 0 → step s = .refused .narrowAccess) ∧
    (256 ≤ off → step s = .refused .outsideWindow)

/-! ### Datapath -/

/-- R103: result bit k of each round function is the truth-table bit its three input bits select; bytes 0xCA, 0xE8, 0x96. -/
def Obligations.RoundFunctionsAreTheirTables : Prop :=
  ∀ (x y z : Word) (k idx : Nat), k < 32 →
    idx = 4 * (x.getLsbD k).toNat + 2 * (y.getLsbD k).toNat + (z.getLsbD k).toNat →
    (roundF x y z).getLsbD k = (0xCA#8).getLsbD idx ∧ (roundG x y z).getLsbD k = (0xE8#8).getLsbD idx ∧
    (roundH x y z).getLsbD k = (0x96#8).getLsbD idx

/-- R104 and R105: the adder tree is the exact sum modulo 2^32, and the rotator moves bit k to bit k + s modulo 32: bits shifted out
re-enter at the other end. -/
def Obligations.AdderTreeAndRotator : Prop :=
  (∀ a f w k : Word, (adderTree a f w k).toNat = (a.toNat + f.toNat + w.toNat + k.toNat) % 2 ^ 32) ∧
  ∀ (v : Word) (s k : Nat), 0 < s → s < 32 → k < 32 → (rotl32 v s).getLsbD ((k + s) % 32) = v.getLsbD k

/-- R106 to R110 and R113: the word orders in closed form, each a permutation of the sixteen words; the amounts and constants. -/
def Obligations.SchedulerTables : Prop :=
  (∀ i, wordIndex .r1 i = i) ∧ (∀ i, (wordIndex .r2 i).val = 4 * (i.val % 4) + i.val / 4) ∧
  (∀ i, (wordIndex .r3 i).val = 8 * (i.val % 2) + 4 * (i.val / 2 % 2) + 2 * (i.val / 4 % 2) + i.val / 8) ∧
  (∀ r (i i' : Fin 16), wordIndex r i = wordIndex r i' → i = i') ∧
  (List.finRange 4).map (rotAmount .r1) = [3, 7, 11, 19] ∧ (List.finRange 4).map (rotAmount .r2) = [3, 5, 9, 13] ∧
  (List.finRange 4).map (rotAmount .r3) = [3, 9, 11, 15] ∧
  roundConst .r1 = 0x00000000 ∧ roundConst .r2 = 0x5A827999 ∧ roundConst .r3 = 0x6ED9EBA1

/-- R158: the rotating register file agrees with the named-role form after every fourth step. -/
def Obligations.RotatingFormAgreesEveryFourthStep : Prop :=
  ∀ (r : Round) (x : MsgBuf) (q : Quad) (i0 i1 i2 i3 : Fin 16),
    i0.val % 4 = 0 → i1.val = i0.val + 1 → i2.val = i0.val + 2 → i3.val = i0.val + 3 →
    (((q.rotatingStep r i0 x).rotatingStep r i1 x).rotatingStep r i2 x).rotatingStep r i3 x =
      (((q.roundStep r i0 x).roundStep r i1 x).roundStep r i2 x).roundStep r i3 x

/-! ### Blocks and messages -/

/-- An accepted BLOCK (R156, R159): from SAVE, the engine is BUSY for exactly 50 micro-ops and then READY with A to D holding
COMPRESS of the chaining value and X; AA to DD hold the chaining value; nothing else changes. -/
def Obligations.BlockCompressesInFiftyMicroOps : Prop :=
  ∀ s : State, s.RST = false → s.PHASE = .busy → s.UOP = 0x31 → s.FIN = false →
    (∀ k, k < 50 → ∃ t, engineTurns k s = .next t ∧ t.PHASE = .busy) ∧
    ∃ t, engineTurns 50 s = .next t ∧ t.quad = compress s.quad s.X ∧
      t = { s with
        A := t.A, B := t.B, C := t.C, D := t.D, AA := s.A, BB := s.B, CC := s.C, DD := s.D
        UOP := 0x3F, PHASE := .ready, events := [] }

/-- An accepted FINAL n (R156, R159), from PAD1: BUSY for exactly 51 micro-ops when n ≤ 55 and 102 when n ≥ 56, then DONE; A to D
hold COMPRESS over the one or two padded blocks. -/
def Obligations.FinalCompletesInFixedMicroOps : Prop :=
  ∀ s : State, s.RST = false → s.PHASE = .busy → s.UOP = 0x32 → s.FIN = true →
    (∀ k, k < (if s.NB.toNat ≤ 55 then 51 else 102) → ∃ t, engineTurns k s = .next t ∧ t.PHASE = .busy) ∧
    ∃ p t, exec .pad1 s = .next p ∧ engineTurns (if s.NB.toNat ≤ 55 then 51 else 102) s = .next t ∧ t.PHASE = .done ∧
      t.UOP = 0x3F ∧ t.FIN = true ∧ t.NEED2 = false ∧ t.NB = s.NB ∧ t.LEN = s.LEN ∧ t.reads = s.reads ∧
      t.ERR_CMD = s.ERR_CMD ∧ t.ERR_BUSY = s.ERR_BUSY ∧ t.ERR_TOOLARGE = s.ERR_TOOLARGE ∧
      (s.NB.toNat ≤ 55 → t.quad = compress s.quad p.X ∧ t.saved = s.quad ∧ t.X = p.X) ∧
      (56 ≤ s.NB.toNat → ∃ p2, exec .pad2 p = .next p2 ∧ t.quad = compress (compress s.quad p.X) p2.X ∧
        t.saved = compress s.quad p.X ∧ t.X = p2.X)

/-- R130, with N(L) of R131: the padding zeros are the least number that brings the length to 56 modulo 64, and P(m) has N(L) blocks of 64 bytes. -/
def Obligations.PaddedMessageIsWholeBlocks : Prop :=
  ∀ m : List Byte,
    (m.length + 1 + padZeros m.length) % 64 = 56 ∧ (∀ z, z < padZeros m.length → (m.length + 1 + z) % 64 ≠ 56) ∧
    (padMessage m).length = 64 * ((m.length + 8) / 64 + 1) ∧
    (∀ o, o < m.length → (padMessage m)[o]? = m[o]?) ∧ (padMessage m)[m.length]? = some 0x80 ∧
    (∀ o, m.length < o → o < m.length + 1 + padZeros m.length → (padMessage m)[o]? = some 0x00) ∧
    ∀ k, k < 8 → (padMessage m)[m.length + 1 + padZeros m.length + k]? = some (BitVec.ofNat 8 (8 * m.length / 2 ^ (8 * k)))

/-- R137: with the message's length in LEN and its tail in the bytes below NB = L mod 64 of X, PAD1 leaves in X the next block of P(m)
and, when n ≥ 56, PAD2 the block after it. -/
def Obligations.PaddingBuildsTheBlocksOfThePaddedMessage : Prop :=
  ∀ (m : List Byte) (s : State), m.length < 2 ^ 61 → s.LEN = BitVec.ofNat 64 m.length → s.NB.toNat = m.length % 64 →
    (∀ j : Fin 64, j.val < m.length % 64 → m[64 * (m.length / 64) + j.val]? = some (s.X.byte j)) →
    ∃ p, exec .pad1 s = .next p ∧ p.X = blockOf (padMessage m) (m.length / 64) ∧
      (m.length % 64 ≤ 55 → blockCount m.length = m.length / 64 + 1) ∧
      (56 ≤ m.length % 64 → blockCount m.length = m.length / 64 + 2 ∧
        ∃ p2, exec .pad2 p = .next p2 ∧ p2.X = blockOf (padMessage m) (m.length / 64 + 1))

/-- R200: the host procedure, from any state that is not BUSY and with any bytes past the end of the message, ends in DONE with no error
flag and with the digest of the message, which the four reads of DIGEST return (the interleaving is log entry 17's). -/
def Obligations.HostProcedureComputesTheDigest : Prop :=
  ∀ (m junk : List Byte) (s : State), m.length < 2 ^ 61 → s.RST = false → s.PHASE ≠ .busy →
    ∃ t, runEvents (hashEvents m junk) s = .next t ∧ t.PHASE = .done ∧ noErrors t = true ∧ digestBytes t = md4 m ∧
      (t.reads.take 4).reverse.flatMap le32bytes = md4 m ∧ runOutcome t = .digest (md4 m)

/-- R201: the digest does not depend on the interleaving. Whatever reads the host makes and whenever the engine moves, if the writes are
those of HASH(m), each made while the engine is not BUSY (the WAITs), and the run ends not BUSY, then it ends in DONE with no error flag and
the digest of m. -/
def Obligations.EveryInterleavingComputesTheDigest : Prop :=
  ∀ (m junk : List Byte) (s t : State) (evs : List Event), m.length < 2 ^ 61 → s.RST = false → s.PHASE ≠ .busy →
    portOnly evs = true → writesOf evs = hashWrites m junk → HostWaits evs s → runEvents evs s = .next t → t.PHASE ≠ .busy →
    t.PHASE = .done ∧ noErrors t = true ∧ digestBytes t = md4 m ∧ t.LEN = BitVec.ofNat 64 m.length

/-- R199, R55: in DONE the digest bytes are d[4n + k] = W[n][8k+7 : 8k] with W = A, B, C, D, sixteen of them, and the words the host reads
at DIGEST0 to DIGEST3 are W. -/
def Obligations.DigestBytesAreLittleEndian : Prop :=
  ∀ s : State, s.RST = false → s.PHASE = .done → (digestBytes s).length = 16 ∧ ∀ n k : Fin 4,
    (digestBytes s)[4 * n.val + k.val]? = some (([s.A, s.B, s.C, s.D][n]).extractLsb' (8 * k.val) 8) ∧
    exec (.rdDigest n) s = .next { s with reads := ([s.A, s.B, s.C, s.D][n]) :: s.reads }

/-- R202: in a state a run can be in, the end of a run delivers a digest exactly in DONE with no flag set, an error exactly in ERROR or
with a flag set, and is not over exactly in READY with no flag; a BUSY state is never an end. -/
def Obligations.EndOfARunDelivers : Prop :=
  ∀ s : State, EngineInv s → runEnded s = true → s.PHASE ≠ .busy ∧
    (∀ bs, runOutcome s = .digest bs ↔
      s.PHASE = .done ∧ s.ERR_CMD = false ∧ s.ERR_BUSY = false ∧ s.ERR_TOOLARGE = false ∧ bs = digestBytes s) ∧
    (runOutcome s = .error ↔ s.PHASE = .error ∨ s.ERR_CMD = true ∨ s.ERR_BUSY = true ∨ s.ERR_TOOLARGE = true) ∧
    (runOutcome s = .notOver ↔ s.PHASE = .ready ∧ s.ERR_CMD = false ∧ s.ERR_BUSY = false ∧ s.ERR_TOOLARGE = false)

/-! ### Whole-machine rules -/

/-- Every step keeps the invariants of R31, with the model's own strengthening (log entry 18). -/
def Obligations.StepKeepsTheInvariants : Prop := ∀ s t : State, EngineInv s → step s = .next t → EngineInv t

/-- The reset state satisfies them, whatever interleaving is placed. -/
def Obligations.ResetSatisfiesTheInvariants : Prop := ∀ evs : List Event, EngineInv { State.reset with events := evs }

/-- R31: I1 to I7 hold in every state that some interleaving reaches from reset. -/
def Obligations.ReachableStatesSatisfyR31 : Prop := ∀ s : State, Reachable s → SpecInv s

/-- The engine is never stuck in a state that satisfies the invariants (R231 with I4), and a step is refused only for an access that is not
one aligned word of the window. -/
def Obligations.NoStepFaultsUnderTheInvariants : Prop :=
  ∀ s : State, EngineInv s → (∀ r, step s ≠ .fault r) ∧
    ((∀ e rest, s.events = e :: rest → e.served = true) → ∃ t, step s = .next t)

/-- While BUSY, a host access leaves everything but ERR_BUSY and what the host got back as it was; ERR_BUSY is set exactly by CTRL writes and
MSG writes (R180, R196, R222). -/
def Obligations.HostAccessWhileBusyDisturbsNothing : Prop :=
  ∀ (t : BitVec 39) (s : State), s.RST = false → s.PHASE = .busy → ∃ rs : List Word,
    exec (decodeBus t) s = .next { s with
      ERR_BUSY := s.ERR_BUSY || (busWe t && (busOff t == 0b000000 || (busOff t).extractLsb' 4 2 == 0b01)), reads := rs }

/-- While BUSY, a host access before a micro-op and the micro-op alone lead to the same registers but for ERR_BUSY: no host access changes
the engine's sequence (R156, R222). -/
def Obligations.HostAccessLeavesTheNextMicroOp : Prop :=
  ∀ (t : BitVec 39) (s s1 s2 : State), s.RST = false → s.PHASE = .busy → exec (decodeBus t) s = .next s1 →
    exec (nextMicroOp s) s = .next s2 →
    nextMicroOp s1 = nextMicroOp s ∧ exec (nextMicroOp s1) s1 = .next { s2 with ERR_BUSY := s1.ERR_BUSY, reads := s1.reads }

/-- R33, R220, R221: an error flag that is set stays set unless INIT is performed, and a flag becomes set only by the causes of R221. -/
def Obligations.ErrorFlagsAreStickyAndCaused : Prop :=
  ∀ (i : Instr) (s t : State), exec i s = .next t → (∀ v, i ≠ .init v ∨ s.PHASE = .busy) →
    (s.ERR_CMD = true → t.ERR_CMD = true) ∧ (s.ERR_BUSY = true → t.ERR_BUSY = true) ∧
    (s.ERR_TOOLARGE = true → t.ERR_TOOLARGE = true) ∧
    (s.ERR_CMD = false → t.ERR_CMD = true → s.PHASE ≠ .busy ∧ ∃ v, i = .ctrlRsvd01xx v ∨ i = .ctrlRsvd1xxx v ∨
      (i = .block v ∨ i = .final v) ∧ (s.PHASE = .done ∨ s.PHASE = .error)) ∧
    (s.ERR_BUSY = false → t.ERR_BUSY = true → s.PHASE = .busy ∧
      ((∃ v, encode i = .bus (busWrite .ctrl v)) ∨ ∃ j v, i = .wrMsg j v)) ∧
    (s.ERR_TOOLARGE = false → t.ERR_TOOLARGE = true → s.PHASE = .ready ∧ t.PHASE = .error ∧
      ∃ v, i = .block v ∧ 2 ^ 61 ≤ s.LEN.toNat + 64 ∨ i = .final v ∧ 2 ^ 61 ≤ s.LEN.toNat + (v.extractLsb' 8 6).toNat)

/-- The frame of the whole machine, register by register: which instructions may change it (R21 to R23, R26 to R30, R32, R135). -/
def Obligations.OnlyTheNamedInstructionsWriteEachRegister : Prop :=
  ∀ (i : Instr) (s t : State), exec i s = .next t →
    (t.quad ≠ s.quad → i.mnemonic ∈ ["INIT", "STEP_R1", "STEP_R2", "STEP_R3", "FFWD"]) ∧
    (t.saved ≠ s.saved → i.mnemonic ∈ ["INIT", "SAVE"]) ∧
    (t.X ≠ s.X → i.mnemonic ∈ ["INIT", "WR_MSG", "PAD1", "PAD2"]) ∧
    (t.LEN ≠ s.LEN → i.mnemonic ∈ ["INIT", "BLOCK", "FINAL"]) ∧
    (t.PHASE ≠ s.PHASE → i.mnemonic ∈ ["INIT", "BLOCK", "FINAL", "FFWD"]) ∧
    (t.UOP ≠ s.UOP → i.mnemonic ∈ ["INIT", "BLOCK", "FINAL"] ∨ i.isMicroOp = true) ∧
    (t.FIN ≠ s.FIN → i.mnemonic ∈ ["INIT", "BLOCK", "FINAL"]) ∧
    (t.NB ≠ s.NB → i.mnemonic ∈ ["INIT", "BLOCK", "FINAL"]) ∧
    (t.NEED2 ≠ s.NEED2 → i.mnemonic ∈ ["INIT", "BLOCK", "FINAL", "PAD1", "PAD2"]) ∧
    (i.isMicroOp = true → t.ERR_CMD = s.ERR_CMD ∧ t.ERR_BUSY = s.ERR_BUSY ∧ t.ERR_TOOLARGE = s.ERR_TOOLARGE) ∧
    t.RST = s.RST ∧ t.events = s.events

/-- Only INIT and reset lead out of DONE and ERROR (R182, R225): a step that changes PHASE there is an INIT write of the host, or an
element of the RST input that asserts or releases it, and leaves every register at its value of R250. -/
def Obligations.OnlyInitAndResetLeaveDoneAndError : Prop :=
  ∀ s t : State, s.PHASE = .done ∨ s.PHASE = .error → step s = .next t → t.PHASE ≠ s.PHASE →
    t = resetRegs t ∧ t.PHASE = .ready ∧
    ((∃ w rest v, s.events = .bus w :: rest ∧ decodeBus w = .init v) ∨
      (∃ we off data rest v, s.events = .mem we off 4 data :: rest ∧ decodeBus (memTxn we off data) = .init v) ∨
      ∃ level rest, s.events = .rst level :: rest ∧ (level = true ∨ s.RST = true))

/-- R136 with I7: in a state that satisfies the invariants a FINAL in READY is accepted, whatever its NBYTES, and of all instructions
only BLOCK can raise ERR_TOOLARGE. -/
def Obligations.FinalIsNeverTooLargeUnderTheInvariants : Prop :=
  ∀ s : State, EngineInv s →
    (∀ v : Word, s.RST = false → s.PHASE = .ready → ∃ t, exec (.final v) s = .next t ∧ t.PHASE = .busy ∧
      t.LEN.toNat = s.LEN.toNat + (v.extractLsb' 8 6).toNat ∧ t.ERR_TOOLARGE = false) ∧
    ∀ (i : Instr) (t : State), exec i s = .next t → s.ERR_TOOLARGE = false → t.ERR_TOOLARGE = true → ∃ v, i = .block v

/-- Progress by count (R156): in every interleaving of port accesses with at least 102 turns of the engine, a BUSY engine comes to a
state that is not BUSY, whatever the host does. -/
def Obligations.EveryCommandCompletesWhateverTheHostDoes : Prop :=
  ∀ (s : State) (evs : List Event), EngineInv s → s.PHASE = .busy → portOnly evs = true → 102 ≤ evs.count .engine →
    ∃ k t, k ≤ evs.length ∧ Sys2Proof.core.run k { s with events := evs } = .next t ∧ t.PHASE ≠ .busy

/-- R62 and R52: a step of one instance, and a host access, change no other instance: at most the one that is stepped or whose window
holds the start address. An access that starts in no window is refused if it reaches into one, and changes nothing if it does not;
one that starts in a window is issued (the routing is log entry 13's). -/
def Obligations.InstancesShareNothing : Prop :=
  (∀ (k j : Nat) (p p' : Platform), stepInstance k p = .next p' → j ≠ k → p'[j]? = p[j]?) ∧
  ∀ (we : Bool) (addr size : Nat) (v : Word) (p : Platform),
    (∀ (p' : Platform) (j : Nat), hostIssues we addr size v p = .next p' → windowHolds j addr = false → p'[j]? = p[j]?) ∧
    (∀ k, k < p.length → windowHolds k addr = true → ∃ p', hostIssues we addr size v p = .next p') ∧
    ((∀ k, k < p.length → windowHolds k addr = false) →
      ((∃ k, k < p.length ∧ windowTouched k addr size = true) → hostIssues we addr size v p = .refused .narrowAccess) ∧
      ((∀ k, k < p.length → windowTouched k addr size = false) → hostIssues we addr size v p = .next p))

/-- R260: on every fair schedule, however long the host goes on and whatever it does, a BUSY engine comes to a state that is not BUSY;
so from every point of the run. Fairness is the only premise on when the engine moves: no count is assumed. -/
def Obligations.FairSchedulesCompleteEveryCommand : Prop :=
  ∀ (σ : Schedule) (s : State), EngineInv s → (∀ k, (σ k).served = true) → Fair σ s →
    ∀ k, ∃ j t, k ≤ j ∧ runSchedule σ j s = .next t ∧ t.PHASE ≠ .busy

/-- R260 and R79: every WAIT terminates. On every fair schedule in which the host does nothing but read STATUS again and again, some
read of it returns BUSY = 0, and the engine is then not BUSY. -/
def Obligations.EveryWaitTerminates : Prop :=
  ∀ (σ : Schedule) (s : State), EngineInv s → Waits σ → Fair σ s →
    ∃ j t, ∃ w : Word, σ j = .bus (busRead .status) ∧ runSchedule σ (j + 1) s = .next t ∧ t.reads.head? = some w ∧
      w.getLsbD 0 = false ∧ t.PHASE ≠ .busy
end

