-- ==== Sys2Proof/Laws/Datapath.lean ====
section
/-! SUPPORT. What the datapath operations do: the rotator, the adder tree, byte lanes of a word, and the byte view of the
message buffer under each of its updates (spec/00_scope.md R7, R8; spec/40_round_functions.md; spec/41_padding.md). -/

namespace Sys2Proof

/-! ### Rotator and adder tree (R7, R104, R105) -/

/-- For the amounts the engine uses the rotator is the library's rotation. -/
theorem rotl32_eq_rotateLeft (v : Word) {s : Nat} (h : s < 32) : rotl32 v s = v.rotateLeft s := by
  rw [rotl32, BitVec.rotateLeft, Nat.mod_eq_of_lt h, BitVec.rotateLeftAux]

theorem rotAmount_pos (r : Round) (p : Fin 4) : 0 < rotAmount r p := by
  cases r <;> revert p <;> decide

theorem rotAmount_lt (r : Round) (p : Fin 4) : rotAmount r p < 32 := by
  cases r <;> revert p <;> decide

theorem adderTree_eq (a f w k : Word) : adderTree a f w k = a + f + w + k := by
  simp only [adderTree, add32]; rw [BitVec.add_assoc (a + f)]

/-! ### Byte lanes (R8, R53) -/

theorem byteLane_getLsbD (w : Word) (k i : Nat) : (byteLane w k).getLsbD i = (decide (i < 8) && w.getLsbD (8 * k + i)) := by
  simp [byteLane]

theorem setByteLane_getLsbD (w : Word) (v : Byte) {k i : Nat} (hi : i < 32) :
    (setByteLane w k v).getLsbD i = if 8 * k ≤ i ∧ i < 8 * k + 8 then v.getLsbD (i - 8 * k) else w.getLsbD i := by
  have hm : (0xFF#32).getLsbD (i - 8 * k) = decide (i - 8 * k < 8) := by
    have e : (0xFF#32) = (BitVec.allOnes 8).setWidth 32 := by decide
    rw [e, BitVec.getLsbD_setWidth, BitVec.getLsbD_allOnes]
    simp; omega
  simp only [setByteLane, BitVec.getLsbD_or, BitVec.getLsbD_and, BitVec.getLsbD_not, BitVec.getLsbD_shiftLeft,
    BitVec.getLsbD_setWidth, hm, hi, decide_true, Bool.true_and]
  by_cases h1 : i < 8 * k
  · have h2 : ¬(8 * k ≤ i ∧ i < 8 * k + 8) := by omega
    simp [h1, h2]
  · by_cases h3 : i < 8 * k + 8
    · have h2 : 8 * k ≤ i ∧ i < 8 * k + 8 := by omega
      have h4 : i - 8 * k < 8 := by omega
      have h5 : i - 8 * k < 32 := by omega
      simp [h1, h2, h4, h5]
    · have h2 : ¬(8 * k ≤ i ∧ i < 8 * k + 8) := by omega
      have h4 : ¬(i - 8 * k < 8) := by omega
      have h5 : v.getLsbD (i - 8 * k) = false := BitVec.getLsbD_of_ge _ _ (by omega)
      simp [h1, h2, h4, h5]

theorem byteLane_setByteLane_same (w : Word) (v : Byte) {k : Nat} (hk : k < 4) : byteLane (setByteLane w k v) k = v := by
  apply BitVec.eq_of_getLsbD_eq
  intro i hi
  rw [byteLane_getLsbD, setByteLane_getLsbD _ _ (by omega), if_pos (by omega)]
  simp [hi]

theorem byteLane_setByteLane_ne (w : Word) (v : Byte) {k k' : Nat} (hk' : k' < 4) (h : k' ≠ k) :
    byteLane (setByteLane w k v) k' = byteLane w k' := by
  apply BitVec.eq_of_getLsbD_eq
  intro i hi
  rw [byteLane_getLsbD, byteLane_getLsbD, setByteLane_getLsbD _ _ (by omega), if_neg (by omega)]

/-- A word is its four byte lanes. -/
theorem word_ext_byteLane {w w' : Word} (h : ∀ k, k < 4 → byteLane w k = byteLane w' k) : w = w' := by
  apply BitVec.eq_of_getLsbD_eq
  intro i hi
  have e := congrArg (fun b => b.getLsbD (i % 8)) (h (i / 8) (by omega))
  simp only [byteLane_getLsbD] at e
  have h8 : i % 8 < 8 := by omega
  have hd : 8 * (i / 8) + i % 8 = i := by omega
  simpa [h8, hd] using e

@[simp] theorem byteLane_wordOfBytes_zero (b0 b1 b2 b3 : Byte) : byteLane (wordOfBytes b0 b1 b2 b3) 0 = b0 := by
  apply BitVec.eq_of_getLsbD_eq
  intro i hi
  simp only [byteLane_getLsbD, wordOfBytes, BitVec.getLsbD_append, hi, decide_true, Bool.true_and]
  rw [if_pos (by omega)]; simp

@[simp] theorem byteLane_wordOfBytes_one (b0 b1 b2 b3 : Byte) : byteLane (wordOfBytes b0 b1 b2 b3) 1 = b1 := by
  apply BitVec.eq_of_getLsbD_eq
  intro i hi
  simp only [byteLane_getLsbD, wordOfBytes, BitVec.getLsbD_append, hi, decide_true, Bool.true_and]
  rw [if_neg (by omega), if_pos (by omega)]; congr 1; omega

@[simp] theorem byteLane_wordOfBytes_two (b0 b1 b2 b3 : Byte) : byteLane (wordOfBytes b0 b1 b2 b3) 2 = b2 := by
  apply BitVec.eq_of_getLsbD_eq
  intro i hi
  simp only [byteLane_getLsbD, wordOfBytes, BitVec.getLsbD_append, hi, decide_true, Bool.true_and]
  rw [if_neg (by omega), if_neg (by omega), if_pos (by omega)]; congr 1; omega

@[simp] theorem byteLane_wordOfBytes_three (b0 b1 b2 b3 : Byte) : byteLane (wordOfBytes b0 b1 b2 b3) 3 = b3 := by
  apply BitVec.eq_of_getLsbD_eq
  intro i hi
  simp only [byteLane_getLsbD, wordOfBytes, BitVec.getLsbD_append, hi, decide_true, Bool.true_and]
  rw [if_neg (by omega), if_neg (by omega), if_neg (by omega)]; congr 1; omega

/-! ### The byte view of the message buffer (R8, R132) -/

theorem byte_setByte_same (x : MsgBuf) (j : Fin 64) (v : Byte) : (x.setByte j v).byte j = v := by
  simp only [MsgBuf.byte, MsgBuf.setByte, Vector.getElem_set_self]
  exact byteLane_setByteLane_same _ _ (by omega)

theorem byte_setByte_ne (x : MsgBuf) {j k : Fin 64} (h : k ≠ j) (v : Byte) : (x.setByte j v).byte k = x.byte k := by
  have hv : k.val ≠ j.val := fun e => h (Fin.ext e)
  simp only [MsgBuf.byte, MsgBuf.setByte]
  by_cases hw : j.val / 4 = k.val / 4
  · simp only [hw, Vector.getElem_set_self]
    exact byteLane_setByteLane_ne _ _ (by omega) (by omega)
  · rw [Vector.getElem_set_ne _ _ hw]

/-- The buffer is its 64 bytes. -/
theorem msgBuf_ext_byte {x y : MsgBuf} (h : ∀ j : Fin 64, x.byte j = y.byte j) : x = y := by
  apply Vector.ext
  intro i hi
  apply word_ext_byteLane
  intro k hk
  have e := h ⟨4 * i + k, by omega⟩
  have h1 : (4 * i + k) / 4 = i := by omega
  have h2 : (4 * i + k) % 4 = k := by omega
  simpa only [MsgBuf.byte, h1, h2] using e

/-- `zeroFrom` clears the bytes from `a` on and keeps the others. -/
theorem byte_zeroFrom (x : MsgBuf) (a : Nat) (j : Fin 64) : (x.zeroFrom a).byte j = if a ≤ j.val then 0x00 else x.byte j := by
  have fold : ∀ (l : List (Fin 64)) (x : MsgBuf),
      (l.foldl (fun x j => if a ≤ j.val then x.setByte j 0x00 else x) x).byte j =
        if j ∈ l ∧ a ≤ j.val then 0x00 else x.byte j := by
    intro l
    induction l with
    | nil => intro x; simp
    | cons k l ih =>
      intro x
      rw [List.foldl_cons, ih]
      by_cases hj : j ∈ l ∧ a ≤ j.val
      · rw [if_pos hj, if_pos ⟨List.mem_cons_of_mem _ hj.1, hj.2⟩]
      · rw [if_neg hj]
        by_cases hk : j = k
        · subst hk
          by_cases ha : a ≤ j.val
          · simp [ha, byte_setByte_same]
          · simp [ha]
        · have hm : ¬(j ∈ k :: l ∧ a ≤ j.val) := by
            rintro ⟨h1, h2⟩
            exact (List.mem_cons.mp h1).elim hk fun h => hj ⟨h, h2⟩
          rw [if_neg hm]
          split
          · exact byte_setByte_ne _ hk _
          · rfl
  have := fold (List.finRange 64) x
  simpa [MsgBuf.zeroFrom] using this

/-- The tail block before the length, byte by byte (R132). -/
theorem byte_padTail (x : MsgBuf) (n : BitVec 6) (j : Fin 64) :
    (x.padTail n).byte j = if j.val < n.toNat then x.byte j else if j.val = n.toNat then 0x80 else 0x00 := by
  rw [MsgBuf.padTail, byte_zeroFrom]
  by_cases h1 : j.val < n.toNat
  · have hne : j ≠ n.toFin := by
      intro e; rw [e] at h1; exact Nat.lt_irrefl _ h1
    rw [if_neg (by omega), if_pos h1, byte_setByte_ne _ hne]
  · by_cases h2 : j.val = n.toNat
    · have he : j = n.toFin := Fin.ext h2
      rw [if_neg (by omega), if_neg h1, if_pos h2, he, byte_setByte_same]
    · rw [if_pos (by omega), if_neg h1, if_neg h2]

@[simp] theorem putLength_14 (x : MsgBuf) (len : BitVec 64) : (x.putLength len)[14] = bitLenLo len := by
  simp [MsgBuf.putLength]

@[simp] theorem putLength_15 (x : MsgBuf) (len : BitVec 64) : (x.putLength len)[15] = bitLenHi len := by
  simp [MsgBuf.putLength]

/-- The bytes below the length keep their values. -/
theorem byte_putLength_below (x : MsgBuf) (len : BitVec 64) {j : Fin 64} (h : j.val < 56) : (x.putLength len).byte j = x.byte j := by
  simp only [MsgBuf.byte, MsgBuf.putLength]
  rw [Vector.getElem_set_ne _ _ (by omega), Vector.getElem_set_ne _ _ (by omega)]

end Sys2Proof
end

