-- ==== Sys2Proof/Laws/Decode.lean ====
section
/-! SUPPORT. The fields of a transaction word, the offset decode both ways, the bytes of a code, and how masks act on
transaction words (spec/30_encoding.md R70, R71, R78). -/

namespace Sys2Proof

/-! ### Fields of a transaction word -/

@[simp] theorem busData_busWord (we : Bool) (off : BitVec 6) (v : Word) : busData (busWord we off v) = v :=
  BitVec.extractLsb'_append_eq_right

@[simp] theorem busOff_busWord (we : Bool) (off : BitVec 6) (v : Word) : busOff (busWord we off v) = off := by
  unfold busOff busWord
  ext i hi
  simp only [BitVec.getElem_extractLsb', BitVec.getLsbD_append]
  have h1 : ¬(32 + i < 32) := by omega
  have h2 : 32 + i - 32 = i := by omega
  simp [h1, h2, hi]

@[simp] theorem busWe_busWord (we : Bool) (off : BitVec 6) (v : Word) : busWe (busWord we off v) = we := by
  unfold busWe busWord
  rw [BitVec.getLsbD_append, BitVec.getLsbD_append]
  cases we <;> rfl

/-- A transaction word is its three fields (R70). -/
theorem busWord_eta (t : BitVec 39) : busWord (busWe t) (busOff t) (busData t) = t := by
  unfold busWord busWe busOff busData
  apply BitVec.eq_of_getLsbD_eq
  intro i hi
  simp only [BitVec.getLsbD_append, BitVec.getLsbD_extractLsb', BitVec.getLsbD_ofBool]
  split
  · simp [*]
  · split
    · have : 32 + (i - 32) = i := by omega
      simp [this]; intro _; omega
    · have : i = 38 := by omega
      subst this; simp

/-- Masking acts on the three fields of a transaction word separately. -/
theorem busWord_and (w w' : Bool) (o o' : BitVec 6) (v v' : Word) :
    busWord w o v &&& busWord w' o' v' = busWord (w && w') (o &&& o') (v &&& v') := by
  unfold busWord
  rw [BitVec.and_append, BitVec.and_append]
  cases w <;> cases w' <;> rfl

/-- Two transaction words are equal when their fields are. -/
theorem busWord_inj {w w' : Bool} {o o' : BitVec 6} {v v' : Word} :
    busWord w o v = busWord w' o' v' ↔ w = w' ∧ o = o' ∧ v = v' := by
  constructor
  · intro h
    have h1 := congrArg busWe h
    have h2 := congrArg busOff h
    have h3 := congrArg busData h
    simp only [busWe_busWord, busOff_busWord, busData_busWord] at h1 h2 h3
    exact ⟨h1, h2, h3⟩
  · rintro ⟨rfl, rfl, rfl⟩; rfl

/-! ### The offset decode (R71) is a bijection -/

@[simp] theorem decodeOff_off (r : Reg) : decodeOff r.off = r := by
  rcases r with _ | _ | _ | _ | n | k | j | k
  · rfl
  · rfl
  · rfl
  · rfl
  · revert n; decide
  · revert k; decide
  · revert j; decide
  · revert k; decide

@[simp] theorem off_decodeOff (off : BitVec 6) : (decodeOff off).off = off := by
  revert off; decide

/-! ### What a host access decodes to -/

@[simp] theorem decodeBus_busWrite (r : Reg) (v : Word) : decodeBus (busWrite r v) = decodeWrite v r := by
  simp [decodeBus, busWrite]

@[simp] theorem decodeBus_busRead (r : Reg) : decodeBus (busRead r) = decodeRead r := by
  simp [decodeBus, busRead]

/-! ### The CMD decode (R73) on a command word whose CMD is known -/

theorem decodeCtrl_cases (v : Word) :
    (ctrlCmd v = 0 ∧ decodeCtrl v = .nop v) ∨ (ctrlCmd v = 1 ∧ decodeCtrl v = .init v) ∨
    (ctrlCmd v = 2 ∧ decodeCtrl v = .block v) ∨ (ctrlCmd v = 3 ∧ decodeCtrl v = .final v) ∨
    ((ctrlCmd v).extractLsb' 2 2 = 0b01 ∧ decodeCtrl v = .ctrlRsvd01xx v) ∨
    ((ctrlCmd v).extractLsb' 3 1 = 0b1 ∧ decodeCtrl v = .ctrlRsvd1xxx v) := by
  unfold decodeCtrl
  generalize ctrlCmd v = c
  have h : c = 0 ∨ c = 1 ∨ c = 2 ∨ c = 3 ∨ (c.extractLsb' 2 2 = 0b01 ∧ c.getLsbD 3 = false ∧ c.getLsbD 2 = true) ∨
      (c.extractLsb' 3 1 = 0b1 ∧ c.getLsbD 3 = true) := by revert c; decide
  rcases h with rfl | rfl | rfl | rfl | ⟨h, h3, h2⟩ | ⟨h, h3⟩
  · simp
  · simp
  · simp
  · simp
  · rw [h3, h2]; exact .inr (.inr (.inr (.inr (.inl ⟨h, rfl⟩))))
  · rw [h3]; exact .inr (.inr (.inr (.inr (.inr ⟨h, rfl⟩))))

/-! ### Bytes -/

/-- The bytes of a code give the code back. -/
theorem codeOfBytes_bytes (c : Code) : codeOfBytes c.bytes = .ok c := by
  cases c with
  | uop u => revert u; decide
  | bus t =>
    have h7 : (t.extractLsb' 32 8).getLsbD 7 = false := by simp
    simp only [Code.bytes, codeOfBytes, h7, Bool.false_eq_true, if_false]
    congr 2
    apply BitVec.eq_of_getLsbD_eq
    intro i hi
    simp only [BitVec.getLsbD_append, BitVec.getLsbD_extractLsb', Nat.zero_add, hi, decide_true, Bool.true_and]
    split
    · simp [*]
    · split
      · rw [show 8 + (i - 8) = i by omega]; simp [*]
      · split
        · rw [show 16 + (i - 8 - 8) = i by omega]; simp [*]
        · split
          · rw [show 24 + (i - 8 - 8 - 8) = i by omega]; simp [*]
          · rw [show 32 + (i - 8 - 8 - 8 - 8) = i by omega]
            have : i - 8 - 8 - 8 - 8 < 8 := by omega
            simp [this]

end Sys2Proof
end

