-- ==== Sys2Proof/Laws/State.lean ====
section
/-! SUPPORT. What each shared update of State leaves and writes, field by field. -/

namespace Sys2Proof.Machine

section
variable (s : State) (q : Quad)

/-! ### `setQuad` writes A to D -/

@[simp] theorem setQuad_A : (s.setQuad q).A = q.a := rfl
@[simp] theorem setQuad_B : (s.setQuad q).B = q.b := rfl
@[simp] theorem setQuad_C : (s.setQuad q).C = q.c := rfl
@[simp] theorem setQuad_D : (s.setQuad q).D = q.d := rfl
@[simp] theorem setQuad_AA : (s.setQuad q).AA = s.AA := rfl
@[simp] theorem setQuad_BB : (s.setQuad q).BB = s.BB := rfl
@[simp] theorem setQuad_CC : (s.setQuad q).CC = s.CC := rfl
@[simp] theorem setQuad_DD : (s.setQuad q).DD = s.DD := rfl
@[simp] theorem setQuad_X : (s.setQuad q).X = s.X := rfl
@[simp] theorem setQuad_LEN : (s.setQuad q).LEN = s.LEN := rfl
@[simp] theorem setQuad_PHASE : (s.setQuad q).PHASE = s.PHASE := rfl
@[simp] theorem setQuad_UOP : (s.setQuad q).UOP = s.UOP := rfl
@[simp] theorem setQuad_FIN : (s.setQuad q).FIN = s.FIN := rfl
@[simp] theorem setQuad_NEED2 : (s.setQuad q).NEED2 = s.NEED2 := rfl
@[simp] theorem setQuad_NB : (s.setQuad q).NB = s.NB := rfl
@[simp] theorem setQuad_ERR_CMD : (s.setQuad q).ERR_CMD = s.ERR_CMD := rfl
@[simp] theorem setQuad_ERR_BUSY : (s.setQuad q).ERR_BUSY = s.ERR_BUSY := rfl
@[simp] theorem setQuad_ERR_TOOLARGE : (s.setQuad q).ERR_TOOLARGE = s.ERR_TOOLARGE := rfl
@[simp] theorem setQuad_RST : (s.setQuad q).RST = s.RST := rfl
@[simp] theorem setQuad_events : (s.setQuad q).events = s.events := rfl
@[simp] theorem setQuad_reads : (s.setQuad q).reads = s.reads := rfl
@[simp] theorem quad_setQuad : (s.setQuad q).quad = q := rfl
@[simp] theorem saved_setQuad : (s.setQuad q).saved = s.saved := rfl
@[simp] theorem setQuad_quad : s.setQuad s.quad = s := rfl
@[simp] theorem setQuad_setQuad (p : Quad) : (s.setQuad p).setQuad q = s.setQuad q := rfl

/-! ### `resetRegs` writes every register of R250 and keeps RST, events and reads -/

@[simp] theorem resetRegs_A : (resetRegs s).A = State.reset.A := rfl
@[simp] theorem resetRegs_B : (resetRegs s).B = State.reset.B := rfl
@[simp] theorem resetRegs_C : (resetRegs s).C = State.reset.C := rfl
@[simp] theorem resetRegs_D : (resetRegs s).D = State.reset.D := rfl
@[simp] theorem resetRegs_AA : (resetRegs s).AA = State.reset.AA := rfl
@[simp] theorem resetRegs_BB : (resetRegs s).BB = State.reset.BB := rfl
@[simp] theorem resetRegs_CC : (resetRegs s).CC = State.reset.CC := rfl
@[simp] theorem resetRegs_DD : (resetRegs s).DD = State.reset.DD := rfl
@[simp] theorem resetRegs_X : (resetRegs s).X = State.reset.X := rfl
@[simp] theorem resetRegs_LEN : (resetRegs s).LEN = State.reset.LEN := rfl
@[simp] theorem resetRegs_PHASE : (resetRegs s).PHASE = State.reset.PHASE := rfl
@[simp] theorem resetRegs_UOP : (resetRegs s).UOP = State.reset.UOP := rfl
@[simp] theorem resetRegs_FIN : (resetRegs s).FIN = State.reset.FIN := rfl
@[simp] theorem resetRegs_NEED2 : (resetRegs s).NEED2 = State.reset.NEED2 := rfl
@[simp] theorem resetRegs_NB : (resetRegs s).NB = State.reset.NB := rfl
@[simp] theorem resetRegs_ERR_CMD : (resetRegs s).ERR_CMD = State.reset.ERR_CMD := rfl
@[simp] theorem resetRegs_ERR_BUSY : (resetRegs s).ERR_BUSY = State.reset.ERR_BUSY := rfl
@[simp] theorem resetRegs_ERR_TOOLARGE : (resetRegs s).ERR_TOOLARGE = State.reset.ERR_TOOLARGE := rfl
@[simp] theorem resetRegs_RST : (resetRegs s).RST = s.RST := rfl
@[simp] theorem resetRegs_events : (resetRegs s).events = s.events := rfl
@[simp] theorem resetRegs_reads : (resetRegs s).reads = s.reads := rfl
@[simp] theorem resetRegs_resetRegs : resetRegs (resetRegs s) = resetRegs s := rfl
@[simp] theorem resetRegs_reset : resetRegs State.reset = State.reset := rfl
@[simp] theorem resetRegs_quad : (resetRegs s).quad = iv := rfl

/-! ### `raiseErr` sets one flag; ErrTooLarge also moves PHASE -/

variable (e : Err)

@[simp] theorem raiseErr_A : (raiseErr e s).A = s.A := by cases e <;> rfl
@[simp] theorem raiseErr_B : (raiseErr e s).B = s.B := by cases e <;> rfl
@[simp] theorem raiseErr_C : (raiseErr e s).C = s.C := by cases e <;> rfl
@[simp] theorem raiseErr_D : (raiseErr e s).D = s.D := by cases e <;> rfl
@[simp] theorem raiseErr_AA : (raiseErr e s).AA = s.AA := by cases e <;> rfl
@[simp] theorem raiseErr_BB : (raiseErr e s).BB = s.BB := by cases e <;> rfl
@[simp] theorem raiseErr_CC : (raiseErr e s).CC = s.CC := by cases e <;> rfl
@[simp] theorem raiseErr_DD : (raiseErr e s).DD = s.DD := by cases e <;> rfl
@[simp] theorem raiseErr_X : (raiseErr e s).X = s.X := by cases e <;> rfl
@[simp] theorem raiseErr_LEN : (raiseErr e s).LEN = s.LEN := by cases e <;> rfl
@[simp] theorem raiseErr_UOP : (raiseErr e s).UOP = s.UOP := by cases e <;> rfl
@[simp] theorem raiseErr_FIN : (raiseErr e s).FIN = s.FIN := by cases e <;> rfl
@[simp] theorem raiseErr_NEED2 : (raiseErr e s).NEED2 = s.NEED2 := by cases e <;> rfl
@[simp] theorem raiseErr_NB : (raiseErr e s).NB = s.NB := by cases e <;> rfl
@[simp] theorem raiseErr_RST : (raiseErr e s).RST = s.RST := by cases e <;> rfl
@[simp] theorem raiseErr_events : (raiseErr e s).events = s.events := by cases e <;> rfl
@[simp] theorem raiseErr_reads : (raiseErr e s).reads = s.reads := by cases e <;> rfl
@[simp] theorem raiseErr_quad : (raiseErr e s).quad = s.quad := by cases e <;> rfl
@[simp] theorem raiseErr_saved : (raiseErr e s).saved = s.saved := by cases e <;> rfl
@[simp] theorem raiseErr_cmd : raiseErr .cmd s = { s with ERR_CMD := true } := rfl
@[simp] theorem raiseErr_busy : raiseErr .busy s = { s with ERR_BUSY := true } := rfl
@[simp] theorem raiseErr_tooLarge : raiseErr .tooLarge s = { s with ERR_TOOLARGE := true, PHASE := .error } := rfl

end

end Sys2Proof.Machine
end

