-- ==== Sys2Proof/Laws/Exec.lean ====
section
/-! SUPPORT. What each shared operation and each instruction can do, said once: the equations of the shared operations, the
outcome of a host access by register, and the inversion of `exec` and `step` on a next state. -/

namespace Sys2Proof

/-- The instruction is a CTRL write. -/
def Instr.isCtrlWrite : Instr → Bool
  | .nop _ | .init _ | .block _ | .final _ | .ctrlRsvd01xx _ | .ctrlRsvd1xxx _ => true
  | _ => false

/-- The instruction is a host read. -/
def Instr.isRead : Instr → Bool
  | .rdCtrl | .rdStatus | .rdLenLo | .rdLenHi | .rdDigest _ | .rdRsvd20 _ | .rdMsg _ | .rdRsvd80 _ => true
  | _ => false

end Sys2Proof

namespace Sys2Proof.Machine

/-! ### Shared operations -/

theorem hostWrite_released {s : State} (h : s.RST = false) (f : State → State) : hostWrite s f = .next (f s) := by
  simp [hostWrite, h]

theorem hostWrite_asserted {s : State} (h : s.RST = true) (f : State → State) : hostWrite s f = .next s := by
  simp [hostWrite, h]

theorem hostWrite_nothing (s : State) : (hostWrite s fun s => s) = .next s := by simp [hostWrite]

theorem hostRead_released {s : State} (h : s.RST = false) (v : Word) : hostRead s v = .next { s with reads := v :: s.reads } := by
  simp [hostRead, h]

theorem hostRead_asserted {s : State} (h : s.RST = true) (v : Word) : hostRead s v = .next { s with reads := 0 :: s.reads } := by
  simp [hostRead, h]

theorem ctrlWrite_busy {s : State} (hr : s.RST = false) (hb : s.PHASE = .busy) (f : State → State) :
    ctrlWrite s f = .next { s with ERR_BUSY := true } := by
  simp [ctrlWrite, hostWrite, hr, hb]

theorem ctrlWrite_notBusy {s : State} (hr : s.RST = false) (hb : s.PHASE ≠ .busy) (f : State → State) :
    ctrlWrite s f = .next (f s) := by
  simp [ctrlWrite, hostWrite, hr, hb]

theorem acceptCommand_refusedPhase {s : State} (h : s.PHASE ≠ .ready) (n : Nat) (fin : Bool) (nb uop : BitVec 6) :
    acceptCommand n fin nb uop s = { s with ERR_CMD := true } := by
  simp [acceptCommand, h]

theorem acceptCommand_tooLarge {s : State} (h : s.PHASE = .ready) {n : Nat} (hl : 2 ^ 61 ≤ s.LEN.toNat + n) (fin : Bool)
    (nb uop : BitVec 6) : acceptCommand n fin nb uop s = { s with ERR_TOOLARGE := true, PHASE := .error } := by
  have hl' : lengthLimit ≤ s.LEN.toNat + n := hl
  simp [acceptCommand, h, hl']

theorem acceptCommand_accepted {s : State} (h : s.PHASE = .ready) {n : Nat} (hl : s.LEN.toNat + n < 2 ^ 61) (fin : Bool)
    (nb uop : BitVec 6) : acceptCommand n fin nb uop s =
      { s with LEN := s.LEN + BitVec.ofNat 64 n, FIN := fin, NB := nb, NEED2 := false, UOP := uop, PHASE := .busy } := by
  have hl' : ¬lengthLimit ≤ s.LEN.toNat + n := Nat.not_le.mpr hl
  simp [acceptCommand, h, hl']

/-- The counted length of an accepted command does not wrap. -/
theorem accepted_len {len : BitVec 64} {n : Nat} (h : len.toNat + n < 2 ^ 61) :
    (len + BitVec.ofNat 64 n).toNat = len.toNat + n := by
  rw [BitVec.toNat_add, BitVec.toNat_ofNat]; omega

/-! ### Host accesses, by register -/

/-- What a read of a register returns while RST is released. -/
def readView (s : State) : Reg → Word
  | .ctrl => 0
  | .status => statusWord s
  | .lenLo => lenLoView s
  | .lenHi => lenHiView s
  | .digest n => digestView n s
  | .rsvd20 _ => 0
  | .msg j => msgView j s
  | .rsvd80 _ => 0

theorem exec_decodeRead (r : Reg) (s : State) :
    exec (decodeRead r) s = .next { s with reads := (if s.RST then 0 else readView s r) :: s.reads } := by
  cases r <;> rfl

/-- The effect of a command word by its CMD (R73), while RST is released and PHASE is not BUSY. -/
def ctrlEffect (v : Word) (s : State) : State :=
  if (ctrlCmd v).getLsbD 3 ∨ (ctrlCmd v).getLsbD 2 then { s with ERR_CMD := true }
  else if ctrlCmd v = 0 then s
  else if ctrlCmd v = 1 then resetRegs s
  else if ctrlCmd v = 2 then acceptCommand 64 false 0 0x31 s
  else acceptCommand (ctrlNbytes v).toNat true (ctrlNbytes v) 0x32 s

theorem exec_decodeCtrl (v : Word) (s : State) : exec (decodeCtrl v) s = ctrlWrite s (ctrlEffect v) := by
  have e : ctrlWrite s (ctrlEffect v) = ctrlWrite s fun s => ctrlEffect v s := rfl
  rw [e]
  unfold decodeCtrl ctrlEffect
  by_cases h3 : (ctrlCmd v).getLsbD 3 = true
  · simp only [h3, if_true, true_or]; rfl
  · by_cases h2 : (ctrlCmd v).getLsbD 2 = true
    · simp only [h3, h2, if_true, or_true]; rfl
    · simp only [h3, h2, if_false, or_self, Bool.false_eq_true]
      by_cases h0 : ctrlCmd v = 0
      · rw [if_pos h0]; simp only [h0, if_true]; rfl
      · rw [if_neg h0]; simp only [h0, if_false]
        by_cases h1 : ctrlCmd v = 1
        · rw [if_pos h1]; simp only [h1, if_true]; rfl
        · rw [if_neg h1]; simp only [h1, if_false]
          by_cases h2' : ctrlCmd v = 2
          · rw [if_pos h2']; simp only [h2', if_true]; rfl
          · rw [if_neg h2']; simp only [h2', if_false]; rfl

/-- The effect of a host write while RST is released. -/
def writeEffect (v : Word) (s : State) : Reg → State
  | .ctrl => if s.PHASE = .busy then { s with ERR_BUSY := true } else ctrlEffect v s
  | .msg j => if s.PHASE = .busy then { s with ERR_BUSY := true } else { s with X := s.X.set j v }
  | .status | .lenLo | .lenHi | .digest _ | .rsvd20 _ | .rsvd80 _ => s

theorem exec_decodeWrite (v : Word) (r : Reg) (s : State) :
    exec (decodeWrite v r) s = .next (if s.RST then s else writeEffect v s r) := by
  cases r with
  | ctrl => rw [decodeWrite, exec_decodeCtrl]; rfl
  | _ => rfl

/-- The outcome of any host access: the state it leads to, always a next state. -/
theorem exec_decodeBus (t : BitVec 39) (s : State) :
    exec (decodeBus t) s = .next
      (if busWe t then (if s.RST then s else writeEffect (busData t) s (decodeOff (busOff t)))
       else { s with reads := (if s.RST then 0 else readView s (decodeOff (busOff t))) :: s.reads }) := by
  unfold decodeBus
  split
  · rw [exec_decodeWrite]
  · rw [exec_decodeRead]

/-! ### Inversion of `exec`: if it answers a next state, one of these happened -/

/-- Everything a next state of `exec` can be. -/
inductive Effect : Instr → State → State → Prop
  /-- A read: only what the host got back. -/
  | read {i s} (w : Word) (hi : i.isRead = true) : Effect i s { s with reads := w :: s.reads }
  /-- Nothing: an ignored write, NOP, IDLE, or a write while RST is asserted. -/
  | nothing {i s} (hi : i.isMicroOp = false ∨ i = .idle) : Effect i s s
  /-- ErrBusy. -/
  | errBusy {i s} (hr : s.RST = false) (hb : s.PHASE = .busy) (hi : i.isCtrlWrite = true ∨ ∃ j v, i = .wrMsg j v) :
      Effect i s { s with ERR_BUSY := true }
  /-- ErrCmd of a reserved command. -/
  | errReserved {i s} (hr : s.RST = false) (hb : s.PHASE ≠ .busy) (hi : ∃ v, i = .ctrlRsvd01xx v ∨ i = .ctrlRsvd1xxx v) :
      Effect i s { s with ERR_CMD := true }
  /-- ErrCmd of BLOCK or FINAL in DONE or ERROR. -/
  | errPhase {i s} (hr : s.RST = false) (hp : s.PHASE = .done ∨ s.PHASE = .error) (hi : ∃ v, i = .block v ∨ i = .final v) :
      Effect i s { s with ERR_CMD := true }
  /-- ErrTooLarge of BLOCK or FINAL. -/
  | errTooLarge {i s} (hr : s.RST = false) (hp : s.PHASE = .ready)
      (hi : ∃ v, i = .block v ∧ 2 ^ 61 ≤ s.LEN.toNat + 64 ∨ i = .final v ∧ 2 ^ 61 ≤ s.LEN.toNat + (ctrlNbytes v).toNat) :
      Effect i s { s with ERR_TOOLARGE := true, PHASE := .error }
  /-- INIT performed. -/
  | init {s} (v : Word) (hr : s.RST = false) (hb : s.PHASE ≠ .busy) : Effect (.init v) s (resetRegs s)
  /-- BLOCK accepted. -/
  | block {s} (v : Word) (hr : s.RST = false) (hp : s.PHASE = .ready) (hl : s.LEN.toNat + 64 < 2 ^ 61) :
      Effect (.block v) s { s with LEN := s.LEN + 64, FIN := false, NB := 0, NEED2 := false, UOP := 0x31, PHASE := .busy }
  /-- FINAL accepted. -/
  | final {s} (v : Word) (hr : s.RST = false) (hp : s.PHASE = .ready) (hl : s.LEN.toNat + (ctrlNbytes v).toNat < 2 ^ 61) :
      Effect (.final v) s { s with
        LEN := s.LEN + BitVec.ofNat 64 (ctrlNbytes v).toNat, FIN := true, NB := ctrlNbytes v, NEED2 := false, UOP := 0x32
        PHASE := .busy }
  /-- A message word stored. -/
  | wrMsg {s} (j : Fin 16) (v : Word) (hr : s.RST = false) (hb : s.PHASE ≠ .busy) :
      Effect (.wrMsg j v) s { s with X := s.X.set j v }
  /-- PAD1, the length in the tail block. -/
  | pad1Short {s} (hn : s.NB.toNat ≤ 55) :
      Effect .pad1 s { s with X := (s.X.padTail s.NB).putLength s.LEN, NEED2 := false, UOP := 0x31 }
  /-- PAD1, a second block needed. -/
  | pad1Long {s} (hn : 56 ≤ s.NB.toNat) : Effect .pad1 s { s with X := s.X.padTail s.NB, NEED2 := true, UOP := 0x31 }
  | pad2 {s} : Effect .pad2 s { s with X := MsgBuf.lengthOnly s.LEN, NEED2 := false, UOP := 0x31 }
  | save {s} : Effect .save s { s with AA := s.A, BB := s.B, CC := s.C, DD := s.D, UOP := 0x00 }
  | stepR1 {s} (k : Fin 16) : Effect (.stepR1 k) s (roundStep .r1 k s)
  | stepR2 {s} (k : Fin 16) : Effect (.stepR2 k) s (roundStep .r2 k s)
  | stepR3 {s} (k : Fin 16) : Effect (.stepR3 k) s (roundStep .r3 k s)
  /-- FFWD to PAD2. -/
  | ffwdMore {s} (hf : s.FIN = true) (hn : s.NEED2 = true) :
      Effect .ffwd s { s.setQuad (s.quad.add s.saved) with UOP := 0x33 }
  /-- FFWD to IDLE. -/
  | ffwdEnd {s} (h : ¬(s.FIN = true ∧ s.NEED2 = true)) :
      Effect .ffwd s { s.setQuad (s.quad.add s.saved) with UOP := 0x3F, PHASE := if s.FIN then .done else .ready }

theorem notBusy_notReady {p : Phase} (h1 : p ≠ .busy) (h2 : p ≠ .ready) : p = .done ∨ p = .error := by
  cases p <;> simp at h1 h2 ⊢

/-- The inversion lemma. -/
theorem exec_effect {i : Instr} {s t : State} (h : exec i s = .next t) : Effect i s t := by
  have ctrl : ∀ (i : Instr) (f : State → State), i.isCtrlWrite = true → i.isMicroOp = false → ctrlWrite s f = .next t →
      (s.RST = false → s.PHASE ≠ .busy → Effect i s (f s)) → Effect i s t := by
    intro i f hc hm hw hf
    cases hr : s.RST with
    | true =>
      rw [ctrlWrite, hostWrite_asserted hr] at hw
      cases hw
      exact .nothing (.inl hm)
    | false =>
      by_cases hb : s.PHASE = .busy
      · rw [ctrlWrite_busy hr hb] at hw
        cases hw
        exact .errBusy hr hb (.inl hc)
      · rw [ctrlWrite_notBusy hr hb] at hw
        cases hw
        exact hf hr hb
  cases i with
  | nop v => exact ctrl _ (fun s => s) rfl rfl h fun _ _ => .nothing (.inl rfl)
  | init v => exact ctrl _ resetRegs rfl rfl h fun hr hb => .init v hr hb
  | block v =>
    refine ctrl _ (acceptCommand 64 false 0 0x31) rfl rfl h fun hr hb => ?_
    by_cases hp : s.PHASE = .ready
    · by_cases hl : 2 ^ 61 ≤ s.LEN.toNat + 64
      · rw [acceptCommand_tooLarge hp hl]; exact .errTooLarge hr hp ⟨v, .inl ⟨rfl, hl⟩⟩
      · rw [acceptCommand_accepted hp (Nat.not_le.mp hl)]; exact .block v hr hp (Nat.not_le.mp hl)
    · rw [acceptCommand_refusedPhase hp]; exact .errPhase hr (notBusy_notReady hb hp) ⟨v, .inl rfl⟩
  | final v =>
    refine ctrl _ (acceptCommand (ctrlNbytes v).toNat true (ctrlNbytes v) 0x32) rfl rfl h fun hr hb => ?_
    by_cases hp : s.PHASE = .ready
    · by_cases hl : 2 ^ 61 ≤ s.LEN.toNat + (ctrlNbytes v).toNat
      · rw [acceptCommand_tooLarge hp hl]; exact .errTooLarge hr hp ⟨v, .inr ⟨rfl, hl⟩⟩
      · rw [acceptCommand_accepted hp (Nat.not_le.mp hl)]; exact .final v hr hp (Nat.not_le.mp hl)
    · rw [acceptCommand_refusedPhase hp]; exact .errPhase hr (notBusy_notReady hb hp) ⟨v, .inr rfl⟩
  | ctrlRsvd01xx v => exact ctrl _ (raiseErr .cmd) rfl rfl h fun hr hb => .errReserved hr hb ⟨v, .inl rfl⟩
  | ctrlRsvd1xxx v => exact ctrl _ (raiseErr .cmd) rfl rfl h fun hr hb => .errReserved hr hb ⟨v, .inr rfl⟩
  | rdCtrl | rdStatus | rdLenLo | rdLenHi => cases h; exact .read _ rfl
  | rdDigest n | rdRsvd20 n | rdMsg n | rdRsvd80 n => cases h; exact .read _ rfl
  | wrStatus v | wrLenLo v | wrLenHi v => cases (hostWrite_nothing s).symm.trans h; exact .nothing (.inl rfl)
  | wrDigest n v | wrRsvd20 n v | wrRsvd80 n v => cases (hostWrite_nothing s).symm.trans h; exact .nothing (.inl rfl)
  | wrMsg j v =>
    simp only [exec, execWrMsg] at h
    cases hr : s.RST with
    | true =>
      rw [hostWrite_asserted hr] at h
      cases h
      exact .nothing (.inl rfl)
    | false =>
      rw [hostWrite_released hr] at h
      split at h
      · cases h; exact .errBusy hr ‹_› (.inr ⟨j, v, rfl⟩)
      · cases h; exact .wrMsg j v hr ‹_›
  | pad1 =>
    simp only [exec, execPad1] at h
    split at h
    · cases h; exact .pad1Short ‹_›
    · cases h; exact .pad1Long (by omega)
  | save => cases h; exact .save
  | stepR1 k => cases h; exact .stepR1 k
  | stepR2 k => cases h; exact .stepR2 k
  | stepR3 k => cases h; exact .stepR3 k
  | ffwd =>
    simp only [exec, execFfwd] at h
    split at h
    · cases h; exact .ffwdMore (And.left ‹_›) (And.right ‹_›)
    · cases h; exact .ffwdEnd ‹_›
  | pad2 => cases h; exact .pad2
  | idle => cases h; exact .nothing (.inr rfl)
  | uopRsvd34 k | uopRsvd38 k | uopRsvd3C k => cases h
  | uopRsvd3E => cases h

/-! ### Inversion of `step` -/

/-- Everything a next state of `step` can be: an instruction run, or the RST input. -/
theorem step_cases {s t : State} (h : step s = .next t) :
    (s.events = [] ∧ exec (nextMicroOp s) s = .next t) ∨
    (∃ rest, s.events = .engine :: rest ∧ exec (nextMicroOp s) { s with events := rest } = .next t) ∨
    (∃ w rest, s.events = .bus w :: rest ∧ exec (decodeBus w) { s with events := rest } = .next t) ∨
    (∃ we off data rest, s.events = .mem we off 4 data :: rest ∧
      exec (decodeBus (memTxn we off data)) { s with events := rest } = .next t) ∨
    (∃ level rest, s.events = .rst level :: rest ∧ t = applyRst level { s with events := rest }) := by
  unfold step fetch at h
  split at h
  · rename_i i s' heq
    split at heq
    · cases heq; exact .inl ⟨‹_›, h⟩
    · cases heq; exact .inr (.inl ⟨_, ‹_›, h⟩)
    · cases heq; exact .inr (.inr (.inl ⟨_, _, ‹_›, h⟩))
    · cases heq
    · split at heq
      · cases heq
      · split at heq
        · rename_i hsz
          cases heq
          obtain ⟨rfl, _⟩ := hsz
          exact .inr (.inr (.inr (.inl ⟨_, _, _, _, ‹_›, h⟩)))
        · cases heq
  · rename_i level s' heq
    split at heq
    · cases heq
    · cases heq
    · cases heq
    · cases heq; cases h; exact .inr (.inr (.inr (.inr ⟨_, _, ‹_›, rfl⟩)))
    · split at heq
      · cases heq
      · split at heq <;> cases heq
  · cases h

/-- Only an instruction can fault, and only the reserved micro-ops do. -/
theorem exec_fault {i : Instr} {s : State} {r : Fault} (h : exec i s = .fault r) :
    (∃ k, i = .uopRsvd34 k) ∨ (∃ k, i = .uopRsvd38 k) ∨ (∃ k, i = .uopRsvd3C k) ∨ i = .uopRsvd3E := by
  cases i with
  | uopRsvd34 k => exact .inl ⟨k, rfl⟩
  | uopRsvd38 k => exact .inr (.inl ⟨k, rfl⟩)
  | uopRsvd3C k => exact .inr (.inr (.inl ⟨k, rfl⟩))
  | uopRsvd3E => exact .inr (.inr (.inr rfl))
  | pad1 => simp only [exec, execPad1] at h; split at h <;> cases h
  | ffwd => simp only [exec, execFfwd] at h; split at h <;> cases h
  | _ => cases h

/-- No instruction is refused. -/
theorem exec_not_refused {i : Instr} {s : State} {r : Refusal} : exec i s ≠ .refused r := by
  cases i with
  | pad1 => simp only [exec, execPad1]; split <;> nofun
  | ffwd => simp only [exec, execFfwd]; split <;> nofun
  | _ => nofun

end Sys2Proof.Machine
end

