-- ==== Sys2Proof/Laws/PerInstr.lean ====
section
/-! SUPPORT. A statement about every instruction as syntax, one lemma per constructor: the word of a well-formed instruction
matches the opcode table's row of its mnemonic (spec/30_encoding.md R70 to R78; spec/opcode_table.json). -/

namespace Sys2Proof.Laws

/-- The low four bits of a command word are CMD (R72). -/
theorem and_fifteen (v : Word) : v &&& 0xF#32 = 0#28 ++ ctrlCmd v := by
  have bit : ∀ i, (0xF#32).getLsbD i = decide (i < 4) := by
    intro i
    by_cases h : i < 32
    · revert i; decide
    · simp [BitVec.getLsbD_of_ge _ _ (Nat.le_of_not_lt h)]; omega
  apply BitVec.eq_of_getLsbD_eq
  intro i hi
  simp only [BitVec.getLsbD_append, ctrlCmd, BitVec.getLsbD_extractLsb', BitVec.getLsbD_and, bit]
  split <;> simp [*]

/-- A mask that keeps CMD bits only sees nothing but CMD. -/
theorem and_cmdMask (v m : Word) (hm : m = 0xF#32 &&& m) : v &&& m = (0#28 ++ ctrlCmd v) &&& m := by
  rw [hm, ← BitVec.and_assoc, and_fifteen, ← BitVec.and_assoc]
  have h : ∀ c : BitVec 4, (0#28 ++ c) &&& 0xF#32 = 0#28 ++ c := by decide
  rw [h]

namespace TableRow

/-- The word of a code matches a row of its format's table with this mnemonic. -/
def InRow (mnemonic : String) : Code → Prop
  | .bus t => ∃ r ∈ busRows, r.mnemonic = mnemonic ∧ r.matches t = true
  | .uop u => ∃ r ∈ uopRows, r.mnemonic = mnemonic ∧ r.matches u = true

/-- The word of a well-formed instruction matches its row. -/
def Statement (i : Instr) : Prop := i.wf = true → InRow i.mnemonic (encode i)

/-- A transaction word matches a row field by field. -/
theorem matches_busWord {row : Row 39} {we wm wb : Bool} {off om ob : BitVec 6} {v dm db : Word}
    (hm : row.mask = busWord wm om dm) (hb : row.bits = busWord wb ob db) (hw : (we && wm) = wb) (ho : off &&& om = ob)
    (hd : v &&& dm = db) : row.matches (busWord we off v) = true := by
  rw [Row.matches, hm, hb, busWord_and, hw, ho, hd, beq_self_eq_true]

/-- A CTRL write matches a row whose data mask keeps CMD bits only. -/
theorem matches_ctrl {row : Row 39} {v dm db : Word} (hm : row.mask = busWord true 0b111111 dm)
    (hb : row.bits = busWord true 0b000000 db) (hk : dm = 0xF#32 &&& dm) (hd : (0#28 ++ ctrlCmd v) &&& dm = db) :
    row.matches (busWrite .ctrl v) = true :=
  matches_busWord hm hb rfl rfl ((and_cmdMask v dm hk).trans hd)

/-- A write of any data matches a row with no data mask. -/
theorem matches_write {row : Row 39} {r : Reg} {v : Word} {om ob : BitVec 6} (hm : row.mask = busWord true om 0)
    (hb : row.bits = busWord true ob 0) (ho : r.off &&& om = ob) : row.matches (busWrite r v) = true :=
  matches_busWord hm hb rfl ho (BitVec.and_zero)

/-! ### CTRL writes -/

theorem nop (v : Word) : Statement (.nop v) := fun h =>
  ⟨⟨"NOP", 0x7F0000000F, 0x4000000000⟩, by decide, rfl, matches_ctrl (dm := 0xF) (db := 0) rfl rfl rfl (by rw [eq_of_beq h]; rfl)⟩

theorem init (v : Word) : Statement (.init v) := fun h =>
  ⟨⟨"INIT", 0x7F0000000F, 0x4000000001⟩, by decide, rfl, matches_ctrl (dm := 0xF) (db := 1) rfl rfl rfl (by rw [eq_of_beq h]; rfl)⟩

theorem block (v : Word) : Statement (.block v) := fun h =>
  ⟨⟨"BLOCK", 0x7F0000000F, 0x4000000002⟩, by decide, rfl, matches_ctrl (dm := 0xF) (db := 2) rfl rfl rfl (by rw [eq_of_beq h]; rfl)⟩

theorem final (v : Word) : Statement (.final v) := fun h =>
  ⟨⟨"FINAL", 0x7F0000000F, 0x4000000003⟩, by decide, rfl, matches_ctrl (dm := 0xF) (db := 3) rfl rfl rfl (by rw [eq_of_beq h]; rfl)⟩

theorem ctrlRsvd01xx (v : Word) : Statement (.ctrlRsvd01xx v) := fun h =>
  ⟨⟨"CTRL_RSVD_CMD_01xx", 0x7F0000000C, 0x4000000004⟩, by decide, rfl, matches_ctrl (dm := 0xC) (db := 0x4) rfl rfl rfl (by
    have k : ∀ c : BitVec 4, c.extractLsb' 2 2 = 0b01 → (0#28 ++ c) &&& 0xC = 0x4#32 := by decide
    exact k _ (eq_of_beq h))⟩

theorem ctrlRsvd1xxx (v : Word) : Statement (.ctrlRsvd1xxx v) := fun h =>
  ⟨⟨"CTRL_RSVD_CMD_1xxx", 0x7F00000008, 0x4000000008⟩, by decide, rfl, matches_ctrl (dm := 0x8) (db := 0x8) rfl rfl rfl (by
    have k : ∀ c : BitVec 4, c.extractLsb' 3 1 = 0b1 → (0#28 ++ c) &&& 0x8 = 0x8#32 := by decide
    exact k _ (eq_of_beq h))⟩

/-! ### Other register accesses -/

theorem rdCtrl : Statement .rdCtrl := fun _ => ⟨⟨"RD_CTRL", 0x7F00000000, 0x0000000000⟩, by decide, rfl, by decide⟩

theorem rdStatus : Statement .rdStatus := fun _ => ⟨⟨"RD_STATUS", 0x7F00000000, 0x0100000000⟩, by decide, rfl, by decide⟩

theorem wrStatus (v : Word) : Statement (.wrStatus v) := fun _ =>
  ⟨⟨"WR_STATUS", 0x7F00000000, 0x4100000000⟩, by decide, rfl, matches_write (om := 0x3F) (ob := 0x01) rfl rfl rfl⟩

theorem rdLenLo : Statement .rdLenLo := fun _ => ⟨⟨"RD_LEN_LO", 0x7F00000000, 0x0200000000⟩, by decide, rfl, by decide⟩

theorem rdLenHi : Statement .rdLenHi := fun _ => ⟨⟨"RD_LEN_HI", 0x7F00000000, 0x0300000000⟩, by decide, rfl, by decide⟩

theorem wrLenLo (v : Word) : Statement (.wrLenLo v) := fun _ =>
  ⟨⟨"WR_LEN_LO", 0x7F00000000, 0x4200000000⟩, by decide, rfl, matches_write (om := 0x3F) (ob := 0x02) rfl rfl rfl⟩

theorem wrLenHi (v : Word) : Statement (.wrLenHi v) := fun _ =>
  ⟨⟨"WR_LEN_HI", 0x7F00000000, 0x4300000000⟩, by decide, rfl, matches_write (om := 0x3F) (ob := 0x03) rfl rfl rfl⟩

theorem rdDigest (n : Fin 4) : Statement (.rdDigest n) := fun _ =>
  ⟨⟨"RD_DIGEST", 0x7C00000000, 0x0400000000⟩, by decide, rfl, by revert n; decide⟩

theorem wrDigest (n : Fin 4) (v : Word) : Statement (.wrDigest n v) := fun _ =>
  ⟨⟨"WR_DIGEST", 0x7C00000000, 0x4400000000⟩, by decide, rfl,
    matches_write (om := 0x3C) (ob := 0x04) rfl rfl (by clear * -; revert n; decide)⟩

theorem rdRsvd20 (k : Fin 8) : Statement (.rdRsvd20 k) := fun _ =>
  ⟨⟨"RD_RSVD_0x20", 0x7800000000, 0x0800000000⟩, by decide, rfl, by revert k; decide⟩

theorem wrRsvd20 (k : Fin 8) (v : Word) : Statement (.wrRsvd20 k v) := fun _ =>
  ⟨⟨"WR_RSVD_0x20", 0x7800000000, 0x4800000000⟩, by decide, rfl,
    matches_write (om := 0x38) (ob := 0x08) rfl rfl (by clear * -; revert k; decide)⟩

theorem rdMsg (j : Fin 16) : Statement (.rdMsg j) := fun _ =>
  ⟨⟨"RD_MSG", 0x7000000000, 0x1000000000⟩, by decide, rfl, by revert j; decide⟩

theorem wrMsg (j : Fin 16) (v : Word) : Statement (.wrMsg j v) := fun _ =>
  ⟨⟨"WR_MSG", 0x7000000000, 0x5000000000⟩, by decide, rfl,
    matches_write (om := 0x30) (ob := 0x10) rfl rfl (by clear * -; revert j; decide)⟩

theorem rdRsvd80 (k : Fin 32) : Statement (.rdRsvd80 k) := fun _ =>
  ⟨⟨"RD_RSVD_0x80", 0x6000000000, 0x2000000000⟩, by decide, rfl, by revert k; decide⟩

theorem wrRsvd80 (k : Fin 32) (v : Word) : Statement (.wrRsvd80 k v) := fun _ =>
  ⟨⟨"WR_RSVD_0x80", 0x6000000000, 0x6000000000⟩, by decide, rfl,
    matches_write (om := 0x20) (ob := 0x20) rfl rfl (by clear * -; revert k; decide)⟩

/-! ### Micro-ops -/

theorem pad1 : Statement .pad1 := fun _ => ⟨⟨"PAD1", 0x3F, 0x32⟩, by decide, rfl, by decide⟩

theorem save : Statement .save := fun _ => ⟨⟨"SAVE", 0x3F, 0x31⟩, by decide, rfl, by decide⟩

theorem stepR1 (i : Fin 16) : Statement (.stepR1 i) := fun _ => ⟨⟨"STEP_R1", 0x30, 0x00⟩, by decide, rfl, by revert i; decide⟩

theorem stepR2 (i : Fin 16) : Statement (.stepR2 i) := fun _ => ⟨⟨"STEP_R2", 0x30, 0x10⟩, by decide, rfl, by revert i; decide⟩

theorem stepR3 (i : Fin 16) : Statement (.stepR3 i) := fun _ => ⟨⟨"STEP_R3", 0x30, 0x20⟩, by decide, rfl, by revert i; decide⟩

theorem ffwd : Statement .ffwd := fun _ => ⟨⟨"FFWD", 0x3F, 0x30⟩, by decide, rfl, by decide⟩

theorem pad2 : Statement .pad2 := fun _ => ⟨⟨"PAD2", 0x3F, 0x33⟩, by decide, rfl, by decide⟩

theorem idle : Statement .idle := fun _ => ⟨⟨"IDLE", 0x3F, 0x3F⟩, by decide, rfl, by decide⟩

theorem uopRsvd34 (k : Fin 4) : Statement (.uopRsvd34 k) := fun _ =>
  ⟨⟨"UOP_RSVD_0x34_0x37", 0x3C, 0x34⟩, by decide, rfl, by revert k; decide⟩

theorem uopRsvd38 (k : Fin 4) : Statement (.uopRsvd38 k) := fun _ =>
  ⟨⟨"UOP_RSVD_0x38_0x3B", 0x3C, 0x38⟩, by decide, rfl, by revert k; decide⟩

theorem uopRsvd3C (k : Fin 2) : Statement (.uopRsvd3C k) := fun _ =>
  ⟨⟨"UOP_RSVD_0x3C_0x3D", 0x3E, 0x3C⟩, by decide, rfl, by revert k; decide⟩

theorem uopRsvd3E : Statement .uopRsvd3E := fun _ => ⟨⟨"UOP_RSVD_0x3E", 0x3F, 0x3E⟩, by decide, rfl, by decide⟩

end TableRow

end Sys2Proof.Laws
end

