-- ==== Sys2Proof/Laws/Runs.lean ====
section
/-! SUPPORT. Runs element by element: the rest of an interleaving only waits while a step takes the first, so a run is its first
step and then the run of the rest, from the front or at the end. -/

namespace Sys2Proof.Machine

/-- An outcome with another rest of the interleaving in its next state. -/
def setEvents (evs : List Event) : Result → Result
  | .next t => .next { t with events := evs }
  | .fault r => .fault r
  | .refused r => .refused r

/-- What comes after an outcome; a stop stays a stop. -/
def andThen (r : Result) (f : State → Result) : Result :=
  match r with
  | .next t => f t
  | .fault e => .fault e
  | .refused e => .refused e

@[simp] theorem setEvents_next (evs : List Event) (t : State) : setEvents evs (.next t) = .next { t with events := evs } := rfl
@[simp] theorem setEvents_fault (evs : List Event) (r : Fault) : setEvents evs (.fault r) = .fault r := rfl
@[simp] theorem setEvents_refused (evs : List Event) (r : Refusal) : setEvents evs (.refused r) = .refused r := rfl
@[simp] theorem andThen_next (t : State) (f : State → Result) : andThen (.next t) f = f t := rfl
@[simp] theorem andThen_fault (r : Fault) (f : State → Result) : andThen (.fault r) f = .fault r := rfl
@[simp] theorem andThen_refused (r : Refusal) (f : State → Result) : andThen (.refused r) f = .refused r := rfl

theorem andThen_assoc (r : Result) (f g : State → Result) : andThen (andThen r f) g = andThen r fun t => andThen (f t) g := by
  cases r <;> rfl

theorem hostWrite_withEvents (s : State) (f : State → State) (evs : List Event)
    (hf : ∀ s : State, f { s with events := evs } = { f s with events := evs }) :
    hostWrite { s with events := evs } f = setEvents evs (hostWrite s f) := by
  simp only [hostWrite, setEvents_next]
  congr 1
  split
  · rfl
  · exact hf s

theorem ctrlWrite_withEvents (s : State) (f : State → State) (evs : List Event)
    (hf : ∀ s : State, f { s with events := evs } = { f s with events := evs }) :
    ctrlWrite { s with events := evs } f = setEvents evs (ctrlWrite s f) :=
  hostWrite_withEvents s _ evs fun s => by
    by_cases hb : s.PHASE = .busy
    · rw [if_pos hb, if_pos hb]; rfl
    · rw [if_neg hb, if_neg hb, hf]

theorem acceptCommand_withEvents (n : Nat) (fin : Bool) (nb uop : BitVec 6) (evs : List Event) (s : State) :
    acceptCommand n fin nb uop { s with events := evs } = { acceptCommand n fin nb uop s with events := evs } := by
  unfold acceptCommand
  split
  · rfl
  · split <;> rfl

/-- No instruction reads or writes the interleaving. -/
theorem exec_withEvents (i : Instr) (s : State) (evs : List Event) : exec i { s with events := evs } = setEvents evs (exec i s) := by
  cases i with
  | nop v => exact ctrlWrite_withEvents s (fun s => s) evs fun _ => rfl
  | init v => exact ctrlWrite_withEvents s resetRegs evs fun _ => rfl
  | block v => exact ctrlWrite_withEvents s _ evs (acceptCommand_withEvents 64 false 0 0x31 evs)
  | final v => exact ctrlWrite_withEvents s _ evs (acceptCommand_withEvents (ctrlNbytes v).toNat true (ctrlNbytes v) 0x32 evs)
  | ctrlRsvd01xx v => exact ctrlWrite_withEvents s (raiseErr .cmd) evs fun _ => rfl
  | ctrlRsvd1xxx v => exact ctrlWrite_withEvents s (raiseErr .cmd) evs fun _ => rfl
  | wrMsg j v =>
    refine hostWrite_withEvents s (fun s => if s.PHASE = .busy then raiseErr .busy s else { s with X := s.X.set j v }) evs
      fun s => ?_
    by_cases hb : s.PHASE = .busy
    · rw [if_pos hb, if_pos hb]; rfl
    · rw [if_neg hb, if_neg hb]
  | wrStatus v | wrLenLo v | wrLenHi v => exact hostWrite_withEvents s (fun s => s) evs fun _ => rfl
  | wrDigest n v | wrRsvd20 n v | wrRsvd80 n v => exact hostWrite_withEvents s (fun s => s) evs fun _ => rfl
  | pad1 => simp only [exec, execPad1]; split <;> rfl
  | ffwd => simp only [exec, execFfwd]; split <;> rfl
  | _ => rfl

theorem applyRst_withEvents (level : Bool) (s : State) (evs : List Event) :
    applyRst level { s with events := evs } = { applyRst level s with events := evs } := by
  unfold applyRst
  split <;> rfl

/-- A step takes the first element; the others only wait. -/
theorem step_cons (e : Event) (rest : List Event) (s : State) :
    step { s with events := e :: rest } = setEvents rest (step { s with events := [e] }) := by
  cases e with
  | bus t => exact exec_withEvents (decodeBus t) { s with events := [] } rest
  | engine => exact exec_withEvents (nextMicroOp s) { s with events := [] } rest
  | rst level => exact congrArg Host.Outcome.next (applyRst_withEvents level { s with events := [] } rest)
  | mem we off size data =>
    simp only [step, fetch]
    split
    · rename_i heq
      split at heq
      · cases heq
      · split at heq
        · cases heq
          rename_i h1 h2
          rw [if_neg h1, if_pos h2]
          exact exec_withEvents _ { s with events := [] } rest
        · cases heq
    · rename_i heq
      split at heq
      · cases heq
      · split at heq <;> cases heq
    · rename_i heq
      split at heq
      · cases heq; rw [if_pos ‹_›]; rfl
      · split at heq
        · cases heq
        · cases heq; rw [if_neg ‹_›, if_neg ‹_›]; rfl

theorem run_succ (n : Nat) (s : State) : Sys2Proof.core.run (n + 1) s = andThen (step s) (Sys2Proof.core.run n) := by
  have unfolded : ∀ (M : Host.Core) (s : M.State), M.run (n + 1) s = match M.step s with
      | .next s' => M.run n s'
      | .fault r => .fault r
      | .refused r => .refused r := fun _ _ => rfl
  refine (unfolded Sys2Proof.core s).trans ?_
  have same : Sys2Proof.core.step s = step s := rfl
  rw [same]
  cases step s <;> rfl

@[simp] theorem runEvents_nil (s : State) : runEvents [] s = .next { s with events := [] } := rfl

/-- A run from the front: one step, then the rest. -/
theorem runEvents_cons (e : Event) (es : List Event) (s : State) :
    runEvents (e :: es) s = andThen (step { s with events := [e] }) (runEvents es) := by
  rw [runEvents, List.length_cons, run_succ, step_cons]
  cases step { s with events := [e] } <;> rfl

/-- A run in two parts. -/
theorem runEvents_append (es fs : List Event) (s : State) : runEvents (es ++ fs) s = andThen (runEvents es s) (runEvents fs) := by
  induction es generalizing s with
  | nil => rfl
  | cons e es ih => rw [List.cons_append, runEvents_cons, runEvents_cons, andThen_assoc]; congr 1; funext t; exact ih t

theorem runSchedule_zero (σ : Schedule) (s : State) : runSchedule σ 0 s = .next { s with events := [] } := rfl

/-- One more element of a schedule is one more step. -/
theorem runSchedule_succ (σ : Schedule) (n : Nat) (s : State) :
    runSchedule σ (n + 1) s = andThen (runSchedule σ n s) (runEvents [σ n]) := by
  rw [runSchedule, List.range_succ, List.map_append, runEvents_append]
  rfl

end Sys2Proof.Machine
end

