-- ==== Sys2Proof/Tests/Slice0.lean ====
section
/-! SUPPORT. The model's own tests: ill-formed terms, words written out from the encodings, one-step results taken from
spec/95_test_vectors.md, and for every obligation with hypotheses a witness that meets them. -/

namespace Sys2Proof.Tests
open Sys2Proof.Machine

-- One thread is enough for a file of small theorems.
set_option Elab.async false

/-! ### Helpers -/

/-- The next state of an outcome, if it is one. -/
def nextState : Result → Option State
  | .next s => some s
  | .fault _ => none
  | .refused _ => none

/-- STATUS after an outcome. -/
def statusAfter (r : Result) : Option Word := (nextState r).map statusWord

/-- Reset with the next element of the interleaving placed. -/
def placed (e : Event) : State := { State.reset with events := [e] }

/-- A FINAL `n` just accepted over the buffer `x`: PAD1 is next. -/
def finalState (n : BitVec 6) (x : MsgBuf) : State :=
  { State.reset with X := x, LEN := n.setWidth 64, NB := n, FIN := true, UOP := 0x32, PHASE := .busy }

/-- A BLOCK just accepted after reset: SAVE is next. -/
def blockState : State := { State.reset with LEN := 64, UOP := 0x31, PHASE := .busy }

/-- A finished message of no bytes, as far as the flags go. -/
def doneState : State := { State.reset with FIN := true, PHASE := .done }

/-- The length limit was exceeded. -/
def errorState : State := { State.reset with ERR_TOOLARGE := true, PHASE := .error }

/-- RST is held. -/
def heldState : State := { State.reset with RST := true }

/-- The two length boundaries of P5. -/
def nearLimit (k : Nat) : State := { State.reset with LEN := BitVec.ofNat 64 (2 ^ 61 - k) }

/-! ### WellFormed: one ill-formed term for each check -/

theorem test_wf_nop : (Instr.nop 0x1).wf = false := by decide
theorem test_wf_init : (Instr.init 0x0).wf = false := by decide
theorem test_wf_block : (Instr.block 0x3).wf = false := by decide
theorem test_wf_final : (Instr.final 0x3802).wf = false := by decide
theorem test_wf_rsvd01xx : (Instr.ctrlRsvd01xx 0x8).wf = false := by decide
theorem test_wf_rsvd1xxx : (Instr.ctrlRsvd1xxx 0x7).wf = false := by decide
theorem test_wf_accepts : (Instr.final 0xFFFFFFF3).wf = true ∧ (Instr.ctrlRsvd1xxx 0xF).wf = true := by decide

/-! ### Decoding: words written out bit by bit from R70 to R76 (WE, OFF, WDATA; UOP) -/

theorem test_decode_ctrl :
    decodeBus (0b1#1 ++ 0b000000#6 ++ 0xFFFFFFF0#32) = .nop 0xFFFFFFF0 ∧
    decodeBus (0b1#1 ++ 0b000000#6 ++ 0x00000001#32) = .init 0x1 ∧
    decodeBus (0b1#1 ++ 0b000000#6 ++ 0xFFFFC0F2#32) = .block 0xFFFFC0F2 ∧
    decodeBus (0b1#1 ++ 0b000000#6 ++ 0x00000303#32) = .final 0x303 ∧
    decodeBus (0b1#1 ++ 0b000000#6 ++ 0x00000004#32) = .ctrlRsvd01xx 0x4 ∧
    decodeBus (0b1#1 ++ 0b000000#6 ++ 0x00000007#32) = .ctrlRsvd01xx 0x7 ∧
    decodeBus (0b1#1 ++ 0b000000#6 ++ 0x00000008#32) = .ctrlRsvd1xxx 0x8 ∧
    decodeBus (0b1#1 ++ 0b000000#6 ++ 0x0000000F#32) = .ctrlRsvd1xxx 0xF := by decide

theorem test_decode_status_len :
    decodeBus (0b0#1 ++ 0b000000#6 ++ 0#32) = .rdCtrl ∧ decodeBus (0b0#1 ++ 0b000001#6 ++ 0#32) = .rdStatus ∧
    decodeBus (0b1#1 ++ 0b000001#6 ++ 0x80000001#32) = .wrStatus 0x80000001 ∧
    decodeBus (0b0#1 ++ 0b000010#6 ++ 0#32) = .rdLenLo ∧ decodeBus (0b0#1 ++ 0b000011#6 ++ 0#32) = .rdLenHi ∧
    decodeBus (0b1#1 ++ 0b000010#6 ++ 5#32) = .wrLenLo 5 ∧ decodeBus (0b1#1 ++ 0b000011#6 ++ 6#32) = .wrLenHi 6 := by decide

theorem test_decode_digest_msg :
    decodeBus (0b0#1 ++ 0b000110#6 ++ 0#32) = .rdDigest 2 ∧ decodeBus (0b1#1 ++ 0b000101#6 ++ 7#32) = .wrDigest 1 7 ∧
    decodeBus (0b0#1 ++ 0b011001#6 ++ 0#32) = .rdMsg 9 ∧ decodeBus (0b1#1 ++ 0b011110#6 ++ 0xCAFEBABE#32) = .wrMsg 14 0xCAFEBABE := by
  decide

theorem test_decode_reserved_offsets :
    decodeBus (0b0#1 ++ 0b001101#6 ++ 0#32) = .rdRsvd20 5 ∧ decodeBus (0b1#1 ++ 0b001010#6 ++ 8#32) = .wrRsvd20 2 8 ∧
    decodeBus (0b0#1 ++ 0b110011#6 ++ 0#32) = .rdRsvd80 19 ∧ decodeBus (0b1#1 ++ 0b100100#6 ++ 9#32) = .wrRsvd80 4 9 := by decide

theorem test_decode_uop :
    decodeUop 0b110010 = .pad1 ∧ decodeUop 0b110001 = .save ∧ decodeUop 0b000101 = .stepR1 5 ∧ decodeUop 0b011010 = .stepR2 10 ∧
    decodeUop 0b100110 = .stepR3 6 ∧ decodeUop 0b110000 = .ffwd ∧ decodeUop 0b110011 = .pad2 ∧ decodeUop 0b111111 = .idle ∧
    decodeUop 0b110110 = .uopRsvd34 2 ∧ decodeUop 0b111001 = .uopRsvd38 1 ∧ decodeUop 0b111100 = .uopRsvd3C 0 ∧
    decodeUop 0b111110 = .uopRsvd3E := by decide

/-- Bits of a read's WDATA have no meaning (R70; log entry 9). -/
theorem test_decode_read_data : decodeBus (0b0#1 ++ 0b000001#6 ++ 0xFFFFFFFF#32) = .rdStatus := by decide

theorem test_decodeTableWord :
    decodeTableWord 40 0x5000636261 = some (.wrMsg 0 0x00636261) ∧ decodeTableWord 40 0x8000000000 = none ∧
    decodeTableWord 8 0x33 = some .pad2 ∧ decodeTableWord 8 0x40 = none := by decide

/-- The interface runs the placed word, a BUS word and a micro-op, as the first instruction after reset. -/
theorem test_withFetchWord :
    statusAfter (step (State.reset.withFetchWord 40 0x4000000303)) = some 0x03720101 ∧
    (nextState (step (State.reset.withFetchWord 8 0x33))).map (·.UOP) = some 0x31 := by decide +kernel

/-! ### Datapath vectors (spec/95_test_vectors.md 2.1 to 2.3) -/

theorem test_roundFunctions :
    roundF 0x12345678 0x9ABCDEF0 0x0FEDCBA9 = 0x1FFDDFF1 ∧ roundG 0x12345678 0x9ABCDEF0 0x0FEDCBA9 = 0x1ABCDEF8 ∧
    roundH 0x12345678 0x9ABCDEF0 0x0FEDCBA9 = 0x87654321 := by decide

theorem test_rotator : rotl32 0x12345678 5 = 0x468ACF02 ∧ rotl32 0x12345678 19 = 0xB3C091A2 ∧ rotl32 0x80000000 3 = 0x4 := by decide

theorem test_adderTree :
    adderTree 0xFFFFFFFF 0xFFFFFFFF 0xFFFFFFFF 0xFFFFFFFF = 0xFFFFFFFC ∧
    adderTree 0x67452301 0x98BADCFE 0x80636261 0x00000000 = 0x80636260 := by decide

/-! ### Host accesses (spec/95_test_vectors.md 2.7) -/

theorem test_nop_ignoredBits : nextState (exec (.nop 0xFFFFFFF0) State.reset) = some State.reset := by decide +kernel

theorem test_init_recovers : statusAfter (exec (.init 0x1) errorState) = some 0x003F0000 := by decide +kernel

theorem test_block_accepted : statusAfter (exec (.block 0xFFFFC0F2) State.reset) = some 0x00310101 := by decide +kernel

theorem test_block_tooLarge : statusAfter (exec (.block 0x2) (nearLimit 64)) = some 0x003F0310 := by decide +kernel

theorem test_final_accepted : statusAfter (exec (.final 0xFFFFFFF3) State.reset) = some 0x3F720101 := by decide +kernel

theorem test_final_inDone : (nextState (exec (.final 0x3) doneState)).map (·.ERR_CMD) = some true := by decide +kernel

theorem test_rsvd01xx : statusAfter (exec (.ctrlRsvd01xx 0x5) State.reset) = some 0x003F0004 ∧
    statusAfter (exec (.ctrlRsvd01xx 0x5) blockState) = some 0x00310109 := by decide +kernel

theorem test_rsvd1xxx : statusAfter (exec (.ctrlRsvd1xxx 0xF) State.reset) = some 0x003F0004 := by decide +kernel

theorem test_reads_reset :
    ([Instr.rdCtrl, .rdStatus, .rdLenLo, .rdLenHi, .rdDigest 1, .rdMsg 15, .rdRsvd20 0, .rdRsvd80 31].map fun i =>
      (nextState (exec i State.reset)).map (·.reads)) =
    [some [0], some [0x003F0000], some [0], some [0], some [0xEFCDAB89], some [0], some [0], some [0]] := by decide +kernel

theorem test_reads_busy :
    ([Instr.rdMsg 0, .rdDigest 0, .rdLenLo].map fun i => (nextState (exec i blockState)).map (·.reads)) =
    [some [0], some [0], some [0x40]] := by decide +kernel

theorem test_len_views : (nextState (exec .rdLenHi (nearLimit 64))).map (·.reads) = some [0x1FFFFFFF] ∧
    (nextState (exec .rdLenLo (nearLimit 64))).map (·.reads) = some [0xFFFFFFC0] := by decide +kernel

theorem test_ignored_writes :
    ([Instr.wrStatus 0xFFFFFFFF, .wrLenLo 5, .wrLenHi 5, .wrDigest 0 5, .wrRsvd20 0 5, .wrRsvd80 0 5].map fun i =>
      nextState (exec i State.reset)) = List.replicate 6 (some State.reset) := by decide +kernel

theorem test_wrMsg : (nextState (exec (.wrMsg 15 0xCAFEBABE) State.reset)).map (·.X[15]) = some 0xCAFEBABE ∧
    (nextState (exec (.wrMsg 0 7) doneState)).map (·.X[0]) = some 7 := by decide +kernel

theorem test_wrMsg_busy : (nextState (exec (.wrMsg 0 0x12345678) blockState)).map (fun t => (t.X[0], t.ERR_BUSY)) = some (0, true) := by
  decide +kernel

/-! ### Padding (spec/95_test_vectors.md 3) -/

/-- The "abc" tail with n = 3, junk behind it. -/
theorem test_pad1_short : (nextState (exec .pad1 (finalState 3 ((Vector.replicate 16 0xEEEEEEEE).set 0 0xEE121110)))).map
      (fun t => (t.X, t.NEED2)) = some (#v[0x80121110, 0, 0, 0, 0, 0, 0, 0, 0, 0, 0, 0, 0, 0, 0x18, 0], false) := by decide +kernel

/-- n = 57: byte 57 is the second lane of X[14]. -/
theorem test_pad1_long : (nextState (exec .pad1 (finalState 57 ((Vector.replicate 16 0xEEEEEEEE).set 14 0xEEEEEE48)))).map
      (fun t => (t.X[13], t.X[14], t.X[15], t.NEED2)) = some (0xEEEEEEEE, 0x00008048, 0, true) := by decide +kernel

theorem test_pad2 : (nextState (exec .pad2 (finalState 57 (Vector.replicate 16 0xEEEEEEEE)))).map (fun t => (t.X[0], t.X[14])) =
    some (0, 0x1C8) := by decide +kernel

/-! ### Compression (spec/95_test_vectors.md 2.4 to 2.6) -/

theorem test_save : (nextState (exec .save State.reset)).map (fun t => (t.saved, t.UOP)) = some (iv, 0x00) := by decide +kernel

theorem test_stepR1 : (nextState (exec (.stepR1 1) State.reset)).map (·.quad) =
    some ⟨0x67452301, 0xEFCDAB89, 0x98BADCFE, 0x192A3A88⟩ := by decide +kernel

theorem test_stepR2 : (nextState (exec (.stepR2 2) State.reset)).map (·.quad) =
    some ⟨0x67452301, 0xEFCDAB89, 0x04F330B5, 0x10325476⟩ := by decide +kernel

theorem test_stepR3 : (nextState (exec (.stepR3 3) State.reset)).map (·.quad) =
    some ⟨0x67452301, 0xA159A73A, 0x98BADCFE, 0x10325476⟩ := by decide +kernel

/-- The scheduler row of round 3, step 13: the word is X[11], the target D. -/
theorem test_scheduler : (nextState (exec (.stepR3 13) { State.reset with
      A := 0, B := 0, C := 0, D := 0, X := Vector.ofFn fun j => BitVec.ofNat 32 (j.val * 0x01010101) })).map (·.D) =
    some 0xC9ED58F3 := by decide +kernel

theorem test_ffwd_wraps : (nextState (exec .ffwd { State.reset with
      A := 0xFFFFFFFF, B := 0x80000000, C := 1, D := 0, AA := 1, BB := 0x80000000, CC := 0xFFFFFFFF, DD := 0 })).map
      (fun t => (t.quad, t.UOP, t.PHASE)) = some (⟨0, 0, 0, 0⟩, 0x3F, .ready) := by decide +kernel

theorem test_ffwd_toPad2 : (nextState (exec .ffwd { finalState 56 (Vector.replicate 16 0) with NEED2 := true })).map
      (fun t => (t.UOP, t.PHASE)) = some (0x33, .busy) := by decide +kernel

theorem test_idle : nextState (step (placed .engine)) = some State.reset := by decide +kernel

theorem test_reservedUop : nextState (step { blockState with UOP := 0x3E, events := [.engine] }) = none := by decide +kernel

/-! ### The access by address, and RST -/

theorem test_mem_access :
    statusAfter (step (placed (.mem true 0x00 4 0x303))) = some 0x03720101 ∧
    nextState (step (placed (.mem true 0x40 1 0x61))) = none ∧ nextState (step (placed (.mem false 0x102 4 0))) = none := by
  decide +kernel

theorem test_rst : nextState (step { blockState with events := [.rst true] }) = some heldState ∧
    nextState (step { heldState with events := [.rst false] }) = some State.reset := by decide +kernel

/-! ### Witnesses: for each obligation with hypotheses, concrete values that meet them -/

theorem test_witness_DecodeInvertsEncode : (Instr.final 0x3803).wf = true := by decide

theorem test_witness_EncodeInvertsDecode : busWe 0x41FFFFFFFF = true ∧ busWe 0x0100000000 = false ∧ busData 0x0100000000 = 0 := by
  decide

theorem test_witness_EveryWordMatchesExactlyItsRow :
    (busWe 0x4000000303 = busWe 0x4000003F03 ∧ busOff 0x4000000303 = busOff 0x4000003F03 ∧
      ctrlCmd (busData 0x4000000303) = ctrlCmd (busData 0x4000003F03)) ∧
    0x34 ≤ (0x34#6).toNat ∧ (0x3E#6).toNat ≤ 0x3E := by decide

theorem test_witness_BytesThatHoldNoCodeAreRejected :
    128 ≤ (0x80#8).toNat ∧ 64 ≤ (0x40#8).toNat ∧ ([] : List Byte).length ≠ 1 ∧ ([] : List Byte).length ≠ 5 := by decide

/-- The states the command statements speak of, and one length on each side of the limit. -/
theorem test_witness_Commands :
    (State.reset.RST = false ∧ State.reset.PHASE = .ready ∧ State.reset.PHASE ≠ .busy) ∧
    (blockState.RST = false ∧ blockState.PHASE = .busy) ∧ (doneState.RST = false ∧ doneState.PHASE = .done) ∧
    (errorState.RST = false ∧ errorState.PHASE = .error) := by decide

theorem test_witness_ResetStateIsR250 : errorState.RST = false ∧ errorState.PHASE ≠ .busy := by decide

theorem test_witness_RstHoldsTheResetState :
    (placed (.rst true)).events = .rst true :: [] ∧ heldState.RST = true ∧ heldState = resetRegs heldState ∧
    nextState (step heldState) = some heldState ∧
    ({ heldState with events := [.engine] } = resetRegs { heldState with events := [.engine] }) ∧
    busWe 0x4000000002 = true ∧ busWe 0x0100000000 = false := by decide +kernel

theorem test_witness_CtrlWriteWhileBusySetsErrBusy : blockState.RST = false ∧ blockState.PHASE = .busy := by decide

theorem test_witness_NopChangesNothing : ctrlCmd 0xFFFFFFF0 = 0x0 ∧ State.reset.PHASE ≠ .busy ∧ blockState.PHASE = .busy := by decide

theorem test_witness_InitStartsANewMessage : ctrlCmd 0x1 = 0x1 ∧ doneState.PHASE ≠ .busy ∧ blockState.PHASE = .busy := by decide

theorem test_witness_BlockCommandOutcomes :
    ctrlCmd 0x2 = 0x2 ∧ ((nearLimit 65).PHASE = .ready ∧ (nearLimit 65).LEN.toNat + 64 < 2 ^ 61) ∧
    ((nearLimit 64).PHASE = .ready ∧ 2 ^ 61 ≤ (nearLimit 64).LEN.toNat + 64) ∧
    (doneState.PHASE = .done ∨ doneState.PHASE = .error) ∧ blockState.PHASE = .busy := by decide

theorem test_witness_FinalCommandOutcomes :
    ctrlCmd 0x3F03 = 0x3 ∧ 63#6 = (0x3F03#32).extractLsb' 8 6 ∧
    ((nearLimit 64).PHASE = .ready ∧ (nearLimit 64).LEN.toNat + (63#6).toNat < 2 ^ 61) ∧
    ((nearLimit 63).PHASE = .ready ∧ 2 ^ 61 ≤ (nearLimit 63).LEN.toNat + (63#6).toNat) ∧
    (errorState.PHASE = .done ∨ errorState.PHASE = .error) ∧ blockState.PHASE = .busy := by decide

theorem test_witness_ReservedCommandsSetErrCmd :
    (0x4 ≤ (ctrlCmd 0x4).toNat ∧ (ctrlCmd 0x7).toNat ≤ 0x7) ∧ 0x8 ≤ (ctrlCmd 0x8).toNat ∧
    State.reset.PHASE ≠ .busy ∧ blockState.PHASE = .busy := by decide

theorem test_witness_IgnoredCtrlBitsHaveNoEffect :
    (0x00000303#32).extractLsb' 0 4 = (0xFFFFC3F3#32).extractLsb' 0 4 ∧
    (0x00000303#32).extractLsb' 8 6 = (0xFFFFC3F3#32).extractLsb' 8 6 := by decide

theorem test_witness_ErrorPriorityOfOneCtrlWrite :
    (64 : Nat) = (if ctrlCmd 0x2 = 0x2 then 64 else ((0x2#32).extractLsb' 8 6).toNat) ∧
    (63 : Nat) = (if ctrlCmd 0x3F03 = 0x2 then 64 else ((0x3F03#32).extractLsb' 8 6).toNat) ∧
    0x4 ≤ (ctrlCmd 0x4).toNat ∧ 2 ^ 61 ≤ (nearLimit 64).LEN.toNat + 64 ∧ 2 ^ 61 ≤ (nearLimit 63).LEN.toNat + 63 := by decide

theorem test_witness_CtrlAndReservedOffsets :
    0b001111#6 = 0b001#3 ++ BitVec.ofFin (w := 3) 7 ∧ 0b111111#6 = 0b1#1 ++ BitVec.ofFin (w := 5) 31 := by decide

theorem test_witness_StatusWordFields : errorState.RST = false := rfl

theorem test_witness_DigestRegisters :
    (State.reset.RST = false ∧ State.reset.PHASE = .ready) ∧ (doneState.RST = false ∧ doneState.PHASE = .done) ∧
    (blockState.RST = false ∧ blockState.PHASE = .busy) ∧ (errorState.RST = false ∧ errorState.PHASE = .error) := by decide

theorem test_witness_MessageRegisters :
    (doneState.RST = false ∧ doneState.PHASE ≠ .busy ∧ (14 : Fin 16) ≠ 15) ∧ (blockState.RST = false ∧ blockState.PHASE = .busy) := by
  decide

theorem test_witness_LengthRegisters : (nearLimit 1).RST = false ∧ (nearLimit 1).LEN.toNat < 2 ^ 61 := by decide

theorem test_witness_HostAccessFrame :
    busWe 0x5F00000007 = true ∧ busOff 0x5F00000007 = 0b01#2 ++ BitVec.ofFin (w := 4) 15 ∧ busWe 0x1000000000 = false ∧
    (busWe 0x4100000000 = true ∧ busOff 0x4100000000 ≠ 0b000000 ∧ (busOff 0x4100000000).extractLsb' 4 2 ≠ 0b01) := by decide

/-- n on both sides of 56, and the last n. -/
theorem test_witness_Pad1PadsTheTail :
    55 = (55#6).toNat ∧ 56 = (56#6).toNat ∧ 63 = (63#6).toNat ∧ (54 : Fin 64).val < 55 ∧ (55 : Fin 64).val = 55 ∧
    (57 : Fin 64).val > 56 := by decide

theorem test_witness_StepOfRoundTwo : (13 : Fin 16).val = 4 * ((7 : Fin 16).val % 4) + (7 : Fin 16).val / 4 := by decide

theorem test_witness_StepOfRoundThree :
    (13 : Fin 16).val = 8 * ((11 : Fin 16).val % 2) + 4 * ((11 : Fin 16).val / 2 % 2) + 2 * ((11 : Fin 16).val / 4 % 2) +
      (11 : Fin 16).val / 8 := by decide

theorem test_witness_FfwdEndsTheBlock :
    ((finalState 56 (Vector.replicate 16 0)).FIN = true ∧ { finalState 56 (Vector.replicate 16 0) with NEED2 := true }.NEED2 = true) ∧
    (finalState 55 (Vector.replicate 16 0)).NEED2 = false ∧ blockState.FIN = false := by decide

theorem test_witness_ReservedMicroOpsAreStuck :
    0x34 ≤ { blockState with UOP := 0x34 }.UOP.toNat ∧ { blockState with UOP := 0x3E }.UOP.toNat ≤ 0x3E ∧
    { blockState with UOP := 0x34 }.PHASE = .busy ∧ { blockState with UOP := 0x34 }.RST = false := by decide

/-- One state for each clause: 0x2F, 0x30, 0x31, 0x32, 0x33 and 0x3F, each with a next state. -/
theorem test_witness_NextUopFunction :
    [0x2F#6, 0x30, 0x31, 0x32, 0x33, 0x3F].all (fun u => (nextState (step { blockState with UOP := u, events := [.engine] })).isSome) =
      true ∧ blockState.RST = false ∧ blockState.PHASE = .busy := by decide +kernel

theorem test_witness_StepRunsTheDecodedInstruction :
    (placed (.bus 0x4000000001)).events = .bus 0x4000000001 :: [] ∧
    ({ blockState with events := [.engine] }.RST = false ∧ { blockState with events := [.engine] }.PHASE = .busy) ∧
    (State.reset.PHASE ≠ .busy ∧ State.reset.events = []) ∧ blockState.events = [] := by decide

theorem test_witness_HostAccessByAddress :
    (placed (.mem true 0xFC 4 0)).events = .mem true 0xFC 4 0 :: [] ∧ 0xFC = 4 * (0x3F#6).toNat ∧ ¬(0xFC + 1) % 4 = 0 ∧
    256 ≤ 0x100 := by decide

theorem test_witness_RoundFunctionsAreTheirTables :
    31 < 32 ∧ 6 = 4 * ((0x80000000#32).getLsbD 31).toNat + 2 * ((0x80000000#32).getLsbD 31).toNat + ((0#32).getLsbD 31).toNat := by
  decide

theorem test_witness_RotatingFormAgreesEveryFourthStep :
    (12 : Fin 16).val % 4 = 0 ∧ (13 : Fin 16).val = (12 : Fin 16).val + 1 ∧ (14 : Fin 16).val = (12 : Fin 16).val + 2 ∧
    (15 : Fin 16).val = (12 : Fin 16).val + 3 := by decide

/-- The largest amount in use, and the bit that re-enters at the bottom. -/
theorem test_witness_AdderTreeAndRotator : 0 < rotAmount .r1 3 ∧ rotAmount .r1 3 < 32 ∧ 31 < 32 := by decide

theorem test_witness_SchedulerTables : wordIndex .r3 15 = wordIndex .r3 15 := rfl

theorem test_witness_BlockCompressesInFiftyMicroOps :
    blockState.RST = false ∧ blockState.PHASE = .busy ∧ blockState.UOP = 0x31 ∧ blockState.FIN = false := by decide

/-- FINAL 55 and FINAL 56 just accepted. -/
theorem test_witness_FinalCompletesInFixedMicroOps :
    (∀ n ∈ [55#6, 56#6], (finalState n (Vector.replicate 16 0)).RST = false ∧ (finalState n (Vector.replicate 16 0)).PHASE = .busy ∧
      (finalState n (Vector.replicate 16 0)).UOP = 0x32 ∧ (finalState n (Vector.replicate 16 0)).FIN = true ∧
      (finalState n (Vector.replicate 16 0)).NB = n) ∧ (55#6).toNat ≤ 55 ∧ 56 ≤ (56#6).toNat := by decide

/-- A byte of the message, a zero of the padding, the first byte of the length. -/
theorem test_witness_PaddedMessageIsWholeBlocks :
    2 < [0x61#8, 0x62, 0x63].length ∧ ([0x61#8, 0x62, 0x63].length < 4 ∧ 4 < [0x61#8, 0x62, 0x63].length + 1 + padZeros 3) ∧
    51 < padZeros 3 ∧ 7 < 8 := by decide

/-- Three message bytes in the low lanes of X[0], and junk in the fourth. -/
theorem test_witness_PaddingBuildsTheBlocksOfThePaddedMessage :
    [0x61#8, 0x62, 0x63].length < 2 ^ 61 ∧
    (finalState 3 ((Vector.replicate 16 0).set 0 0xEE636261)).LEN = BitVec.ofNat 64 [0x61#8, 0x62, 0x63].length ∧
    (finalState 3 ((Vector.replicate 16 0).set 0 0xEE636261)).NB.toNat = [0x61#8, 0x62, 0x63].length % 64 ∧
    ∀ j : Fin 64, j.val < [0x61#8, 0x62, 0x63].length % 64 → [0x61#8, 0x62, 0x63][64 * ([0x61#8, 0x62, 0x63].length / 64) + j.val]? =
      some ((finalState 3 ((Vector.replicate 16 0).set 0 0xEE636261)).X.byte j) := by decide +kernel

theorem test_witness_HostProcedureComputesTheDigest :
    [0x61#8, 0x62, 0x63].length < 2 ^ 61 ∧ doneState.RST = false ∧ doneState.PHASE ≠ .busy := by decide

/-- The waits of an interleaving, as a check that runs. -/
def waitsCheck : List Event → State → Bool
  | [], _ => true
  | e :: es, s =>
    (!e.isWrite || s.PHASE != .busy) &&
      match step { s with events := [e] } with
      | .next s' => waitsCheck es s'
      | .fault _ => true
      | .refused _ => true

theorem hostWaits_of_waitsCheck {evs : List Event} {s : State} (h : waitsCheck evs s = true) : HostWaits evs s := by
  induction evs generalizing s with
  | nil => trivial
  | cons e es ih =>
    rw [waitsCheck, Bool.and_eq_true] at h
    refine ⟨fun hw hb => ?_, fun s' hs => ih ?_⟩
    · have h1 := h.1
      rw [hw, hb] at h1
      exact absurd h1 (by decide)
    · have h2 := h.2
      rw [hs] at h2
      exact h2

/-- The digest of no bytes with a read of STATUS while the engine runs: every hypothesis of the statement, an end in DONE. -/
theorem test_witness_EveryInterleavingComputesTheDigest :
    let evs := [.bus (busWrite .ctrl 0x1), .bus (busWrite .ctrl 0x3), .bus (busRead .status)] ++ List.replicate 51 Event.engine
    ([] : List Byte).length < 2 ^ 61 ∧ State.reset.RST = false ∧ State.reset.PHASE ≠ .busy ∧ portOnly evs = true ∧
    writesOf evs = hashWrites [] [] ∧ HostWaits evs State.reset ∧ (nextState (runEvents evs State.reset)).map (·.PHASE) = some .done := by
  refine ⟨by decide, by decide, by decide, by decide, by decide +kernel, hostWaits_of_waitsCheck (by decide +kernel), by decide +kernel⟩

theorem test_witness_DigestBytesAreLittleEndian : doneState.RST = false ∧ doneState.PHASE = .done := by decide

/-! ### States that meet the invariants -/

theorem engineInv_reset : EngineInv State.reset :=
  ⟨⟨by decide, by decide, by decide, by decide, by decide, by decide, by decide⟩, by decide, by decide, by decide⟩

theorem engineInv_block : EngineInv blockState :=
  ⟨⟨by decide, by decide, by decide, by decide, by decide, by decide, by decide⟩, by decide, by decide, by decide⟩

theorem engineInv_done : EngineInv doneState :=
  ⟨⟨by decide, by decide, by decide, by decide, by decide, by decide, by decide⟩, by decide, by decide, by decide⟩

theorem engineInv_error : EngineInv errorState :=
  ⟨⟨by decide, by decide, by decide, by decide, by decide, by decide, by decide⟩, by decide, by decide, by decide⟩

theorem engineInv_nearLimit : EngineInv (nearLimit 64) :=
  ⟨⟨by decide, by decide, by decide, by decide, by decide, by decide, by decide⟩, by decide, by decide, by decide⟩

theorem test_witness_EndOfARunDelivers : EngineInv doneState ∧ runEnded doneState = true ∧ EngineInv errorState ∧
    runEnded errorState = true ∧ EngineInv State.reset ∧ runEnded State.reset = true :=
  ⟨engineInv_done, by decide, engineInv_error, by decide, engineInv_reset, by decide⟩

theorem test_witness_StepKeepsTheInvariants : EngineInv blockState ∧ ∃ t, step blockState = .next t := ⟨engineInv_block, _, rfl⟩

theorem test_witness_ReachableStatesSatisfyR31 : Reachable State.reset := ⟨[], 0, rfl⟩

theorem engineInv_memAccess : EngineInv (placed (.mem false 0xFC 4 0)) :=
  ⟨⟨by decide, by decide, by decide, by decide, by decide, by decide, by decide⟩, by decide, by decide, by decide⟩

/-- No element left, and an aligned access by address at the last word of the window. -/
theorem test_witness_NoStepFaultsUnderTheInvariants :
    (EngineInv blockState ∧ ∀ e rest, blockState.events = e :: rest → e.served = true) ∧
    EngineInv (placed (.mem false 0xFC 4 0)) ∧ ∀ e rest, (placed (.mem false 0xFC 4 0)).events = e :: rest → e.served = true :=
  ⟨⟨engineInv_block, nofun⟩, engineInv_memAccess, fun e rest h => by cases h; decide⟩

theorem test_witness_HostAccessWhileBusyDisturbsNothing : blockState.RST = false ∧ blockState.PHASE = .busy := by decide

theorem test_witness_HostAccessLeavesTheNextMicroOp : blockState.RST = false ∧ blockState.PHASE = .busy ∧
    (∃ s1, exec (decodeBus 0x5000000001) blockState = .next s1) ∧ ∃ s2, exec (nextMicroOp blockState) blockState = .next s2 :=
  ⟨by decide, by decide, ⟨_, rfl⟩, _, rfl⟩

/-- A flag that is set and kept, and each flag becoming set. -/
theorem test_witness_ErrorFlagsAreStickyAndCaused :
    (nextState (exec (.block 0x2) errorState)).map (·.ERR_TOOLARGE) = some true ∧
    (nextState (exec (.ctrlRsvd01xx 0x4) State.reset)).map (·.ERR_CMD) = some true ∧
    (nextState (exec (.wrMsg 0 0) blockState)).map (·.ERR_BUSY) = some true ∧
    (nextState (exec (.block 0x2) (nearLimit 64))).map (·.ERR_TOOLARGE) = some true ∧
    ∀ v, Instr.block 0x2 ≠ .init v ∨ errorState.PHASE = .busy :=
  ⟨by decide +kernel, by decide +kernel, by decide +kernel, by decide +kernel, fun _ => .inl nofun⟩

theorem test_witness_OnlyTheNamedInstructionsWriteEachRegister :
    (∃ t, exec (.final 0x3F03) State.reset = .next t ∧ t.LEN ≠ State.reset.LEN ∧ t.PHASE ≠ State.reset.PHASE ∧
      t.UOP ≠ State.reset.UOP ∧ t.FIN ≠ State.reset.FIN ∧ t.NB ≠ State.reset.NB) ∧
    (∃ t, exec .save State.reset = .next t ∧ t.saved ≠ State.reset.saved) ∧
    (∃ t, exec (.stepR2 0) State.reset = .next t ∧ t.quad ≠ State.reset.quad) ∧
    ∃ t, exec .pad1 (finalState 56 (Vector.replicate 16 0)) = .next t ∧ t.X ≠ Vector.replicate 16 0 ∧ t.NEED2 ≠ false :=
  ⟨⟨_, rfl, by decide⟩, ⟨_, rfl, by decide⟩, ⟨_, rfl, by decide +kernel⟩, _, rfl, by decide +kernel⟩

theorem test_witness_OnlyInitAndResetLeaveDoneAndError :
    ({ doneState with events := [.bus 0x4000000001] }.PHASE = .done) ∧
    (nextState (step { doneState with events := [.bus 0x4000000001] })).map (·.PHASE) = some .ready ∧
    errorState.PHASE = .error ∧ (nextState (step { errorState with events := [.rst true] })).map (·.PHASE) = some .ready := by
  decide +kernel

theorem test_witness_FinalIsNeverTooLargeUnderTheInvariants :
    EngineInv State.reset ∧ State.reset.RST = false ∧ State.reset.PHASE = .ready ∧ EngineInv (nearLimit 64) ∧
    (nearLimit 64).ERR_TOOLARGE = false ∧ (nextState (exec (.block 0x2) (nearLimit 64))).map (·.ERR_TOOLARGE) = some true :=
  ⟨engineInv_reset, by decide, by decide, engineInv_nearLimit, by decide, by decide +kernel⟩

theorem test_witness_EveryCommandCompletesWhateverTheHostDoes :
    EngineInv blockState ∧ blockState.PHASE = .busy ∧ portOnly (List.replicate 102 .engine) = true ∧
    102 ≤ (List.replicate 102 Event.engine).count .engine :=
  ⟨engineInv_block, by decide, by decide, by rw [List.count_replicate_self]⟩

theorem test_witness_InstancesShareNothing :
    (∃ p', stepInstance 0 [State.reset, State.reset] = .next p') ∧ (1 : Nat) ≠ 0 ∧
    (windowHolds 0 (Config.md4ceBase 0 + 255) = true ∧ 0 < [State.reset].length) ∧
    ((∀ k, k < [State.reset].length → windowHolds k (Config.md4ceBase 0 + 256) = false) ∧
      ∀ k, k < [State.reset].length → windowTouched k (Config.md4ceBase 0 + 256) 4 = false) ∧
    ∃ p', hostIssues true (Config.md4ceBase 0 + 256) 4 0 [State.reset] = .next p' :=
  ⟨⟨_, rfl⟩, by decide, ⟨by simp [windowHolds], by decide⟩,
    ⟨fun k hk => by cases Nat.lt_one_iff.mp hk; simp [windowHolds], fun k hk => by cases Nat.lt_one_iff.mp hk; simp [windowTouched]⟩,
    ⟨[State.reset], by simp [hostIssues, List.range_succ, windowHolds, windowTouched]⟩⟩

/-- A word that starts one byte below the window reaches into it. The base is OPEN (R5): at base 0 nothing lies below. -/
theorem test_witness_InstancesShareNothing_refusal (h : 1 ≤ Config.md4ceBase 0) :
    (∀ k, k < [State.reset].length → windowHolds k (Config.md4ceBase 0 - 1) = false) ∧
    ∃ k, k < [State.reset].length ∧ windowTouched k (Config.md4ceBase 0 - 1) 4 = true := by
  refine ⟨fun k hk => ?_, 0, by decide, ?_⟩
  · cases Nat.lt_one_iff.mp hk; simp [windowHolds]; omega
  · simp [windowTouched]; omega

/-- The engine alone, from an accepted BLOCK. -/
theorem test_witness_FairSchedulesCompleteEveryCommand :
    EngineInv blockState ∧ blockState.PHASE = .busy ∧ (∀ k, ((fun _ => .engine : Schedule) k).served = true) ∧
    Fair (fun _ => .engine) blockState :=
  ⟨engineInv_block, by decide, fun _ => rfl, fun k t h _ => ⟨k, t, Nat.le_refl k, h, .inr rfl⟩⟩

/-- A host in WAIT that polls between any two turns of the engine. -/
def pollingSchedule : Schedule := fun k => if k % 2 = 0 then .engine else .bus (busRead .status)

theorem test_witness_EveryWaitTerminates :
    EngineInv blockState ∧ blockState.PHASE = .busy ∧ Waits pollingSchedule ∧ Fair pollingSchedule blockState := by
  refine ⟨engineInv_block, by decide, ⟨fun k => ?_, fun k => ⟨2 * k + 1, by omega, ?_⟩⟩, fun k t h _ => ?_⟩
  · unfold pollingSchedule
    split
    · exact .inl rfl
    · exact .inr (.inr rfl)
  · exact if_neg (by omega)
  · by_cases hk : k % 2 = 0
    · exact ⟨k, t, Nat.le_refl k, h, .inr (if_pos hk)⟩
    · have hp : pollingSchedule k = .bus (busRead .status) := if_neg hk
      refine ⟨k + 1, { t with events := [], reads := (if t.RST then 0 else statusWord t) :: t.reads }, by omega, ?_,
        .inr (if_pos (by omega))⟩
      rw [runSchedule_succ, h, andThen_next, hp, runEvents_cons]
      rfl

end Sys2Proof.Tests
end

section
/-! PROOFS. The statements of spec/00_scope.md: the adder tree and the rotator (R7, R104, R105), what one step runs
(R10, R58, R157), and a host access by byte offset (R9, R51, R52). -/

namespace Sys2Proof

/-! ### The adder tree and the rotator -/

theorem adderTree_toNat (a f w k : Word) :
    (adderTree a f w k).toNat = (a.toNat + f.toNat + w.toNat + k.toNat) % 2 ^ 32 := by
  simp only [adderTree_eq, BitVec.toNat_add, Nat.mod_add_mod]

/-- A bit that stays within the word under a rotation by `s` moves up by `s`. -/
theorem rotl32_getLsbD_of_stays (v : Word) {s k : Nat} (h : k + s < 32) : (rotl32 v s).getLsbD (k + s) = v.getLsbD k := by
  have above : ¬(k + s < s) := by omega
  rw [rotl32_eq_rotateLeft v (by omega), BitVec.getLsbD_rotateLeft_of_le (by omega)]
  simp [above, h]

/-- A bit shifted out by a rotation by `s` re-enters at the other end. -/
theorem rotl32_getLsbD_of_wraps (v : Word) {s k : Nat} (hs : s < 32) (hk : k < 32) (h : 32 ≤ k + s) :
    (rotl32 v s).getLsbD (k + s - 32) = v.getLsbD k := by
  have below : k + s - 32 < s := by omega
  have source : 32 - s + (k + s - 32) = k := by omega
  rw [rotl32_eq_rotateLeft v hs, BitVec.getLsbD_rotateLeft_of_le hs]
  simp [below, source]

theorem rotl32_getLsbD_mod (v : Word) {s k : Nat} (hs : s < 32) (hk : k < 32) :
    (rotl32 v s).getLsbD ((k + s) % 32) = v.getLsbD k := by
  by_cases h : k + s < 32
  · rw [Nat.mod_eq_of_lt h, rotl32_getLsbD_of_stays v h]
  · have target : (k + s) % 32 = k + s - 32 := by omega
    rw [target, rotl32_getLsbD_of_wraps v hs hk (by omega)]

/-- Settles O36: the tree from the library's `toNat` of a sum; the rotator bit by bit, by whether the bit stays in the word. -/
theorem adderTreeAndRotator : Obligations.AdderTreeAndRotator :=
  ⟨adderTree_toNat, fun v _ _ _ hs hk => rotl32_getLsbD_mod v hs hk⟩

end Sys2Proof

namespace Sys2Proof.Machine

/-! ### The engine's turn (R157) -/

@[simp] theorem exec_idle (s : State) : exec .idle s = .next s := rfl

theorem nextMicroOp_of_busy {s : State} (hr : s.RST = false) (hb : s.PHASE = .busy) : nextMicroOp s = decodeUop s.UOP :=
  if_pos ⟨hr, hb⟩

theorem nextMicroOp_of_notBusy {s : State} (hb : s.PHASE ≠ .busy) : nextMicroOp s = .idle :=
  if_neg fun h => hb h.2

/-! ### What one step runs, by the next element of the interleaving (R58) -/

section StepByElement

variable {s : State} {rest : List Event}

theorem step_of_noEvents (h : s.events = []) : step s = exec (nextMicroOp s) s := by
  simp only [step, fetch, h]

theorem step_of_engine (h : s.events = .engine :: rest) : step s = exec (nextMicroOp s) { s with events := rest } := by
  simp only [step, fetch, h]

theorem step_of_bus {t : BitVec 39} (h : s.events = .bus t :: rest) :
    step s = exec (decodeBus t) { s with events := rest } := by
  simp only [step, fetch, h]

variable {we : Bool} {off size : Nat} {v : Word}

theorem step_of_mem_outside (h : s.events = .mem we off size v :: rest) (ho : 256 ≤ off) :
    step s = .refused .outsideWindow := by
  simp only [step, fetch, h, if_pos ho]

theorem step_of_mem_notWord (h : s.events = .mem we off size v :: rest) (ho : off < 256) (hw : size ≠ 4 ∨ off % 4 ≠ 0) :
    step s = .refused .narrowAccess := by
  have notWord : ¬(size = 4 ∧ off % 4 = 0) := by omega
  simp only [step, fetch, h, if_neg (Nat.not_le.mpr ho), if_neg notWord]

theorem step_of_mem_word (h : s.events = .mem we off 4 v :: rest) (ho : off < 256) (ha : off % 4 = 0) :
    step s = exec (decodeBus (memTxn we off v)) { s with events := rest } := by
  simp [step, fetch, h, ha, Nat.not_le.mpr ho]

end StepByElement

/-- The aligned byte offset of a port word is the port's access to that word (R9). -/
theorem memTxn_wordOffset (we : Bool) (o : BitVec 6) (v : Word) :
    memTxn we (4 * o.toNat) v = busWord we o (if we then v else 0) := by
  rw [memTxn, Nat.mul_div_cancel_left _ (by decide), BitVec.ofNat_toNat, BitVec.setWidth_eq]

/-- Settles O33, clause by clause from the step's equation for each element and the engine's turn in each phase. -/
theorem stepRunsTheDecodedInstruction : Obligations.StepRunsTheDecodedInstruction := by
  intro s
  refine ⟨fun t rest h => step_of_bus h, fun rest hr hb h => ?_, fun rest hb h => ?_, fun hr hb h => ?_, fun hb h => ?_⟩
  · rw [step_of_engine h, nextMicroOp_of_busy hr hb]
  · rw [step_of_engine h, nextMicroOp_of_notBusy hb, exec_idle]
  · rw [step_of_noEvents h, nextMicroOp_of_busy hr hb]
  · rw [step_of_noEvents h, nextMicroOp_of_notBusy hb, exec_idle]

/-- Settles O34, by the three ways the fetch takes an access by byte offset. -/
theorem hostAccessByAddress : Obligations.HostAccessByAddress := by
  intro s we off size v rest h
  refine ⟨fun o hsize hoff => ?_, step_of_mem_notWord h, step_of_mem_outside h⟩
  subst hsize hoff
  rw [step_of_mem_word h (by omega) (by omega), memTxn_wordOffset]

end Sys2Proof.Machine
end

section
/-! PROOFS. The statements of spec/10_state.md: the invariants R31 and what keeps them, the errors' causes (R33, R221), the
writers of each register (R21 to R32), and what the window reads (R34, R35). -/

namespace Sys2Proof

/-! ### What the engine's turn runs -/

/-- Every value of UOP is the encoding of the micro-op it selects, so the micro-op gives UOP back (R76). -/
theorem encode_decodeUop (u : BitVec 6) : encode (decodeUop u) = .uop u := by
  revert u; decide

theorem decodeBus_isHostAccess (t : BitVec 39) : (decodeBus t).isMicroOp = false := by
  unfold decodeBus
  split
  · cases decodeOff (busOff t) with
    | ctrl =>
      rw [decodeWrite]
      obtain ⟨-, h⟩ | ⟨-, h⟩ | ⟨-, h⟩ | ⟨-, h⟩ | ⟨-, h⟩ | ⟨-, h⟩ := decodeCtrl_cases (busData t) <;> rw [h] <;> rfl
    | _ => rfl
  · cases decodeOff (busOff t) <;> rfl

/-- After a step of rounds 1 to 3 the counter is at most at FFWD, 0x30 (R155). -/
theorem stepUop_succ_le (round : BitVec 2) (k : Fin 16) (h : round ≠ 0b11) :
    (round ++ (BitVec.ofFin k : BitVec 4) + 1).toNat ≤ 0x30 := by
  revert round k; decide

end Sys2Proof

namespace Sys2Proof.Machine

/-! ### The invariants R31 -/

section
variable {s t : State}

theorem SpecInv.uop_of_notBusy (h : SpecInv s) (hb : s.PHASE ≠ .busy) : s.UOP = 0x3F :=
  not_not.mp (mt h.busyIffMicroOp.mpr hb)

theorem SpecInv.tooLarge_of_notError (h : SpecInv s) (hp : s.PHASE ≠ .error) : s.ERR_TOOLARGE = false :=
  Bool.eq_false_iff.mpr (mt h.tooLargeIffError.mp hp)

/-- What a BUSY state has to meet. -/
theorem engineInv_of_busy (hr : t.RST = false) (hb : t.PHASE = .busy) (hu : t.UOP.toNat < 0x34) (hl : t.LEN.toNat < 2 ^ 61)
    (hn : t.NEED2 = true → t.FIN = true ∧ 56 ≤ t.NB.toNat) (he : t.ERR_TOOLARGE = false)
    (hblock : t.FIN = false → t.LEN.toNat % 64 = 0) (hpad : t.UOP = 0x32 → t.FIN = true) : EngineInv t where
  busyIffMicroOp := iff_of_true hb fun hidle => by simp [hidle] at hu
  lenBounded := hl
  need2Tail := hn
  uopLegal := by omega
  doneFinal := by simp [hb]
  tooLargeIffError := by simp [hb, he]
  wholeBlocks := by simp [hb]
  blockInProgress := fun _ => hblock
  pad1OfFinal := hpad
  heldInReset := by simp [hr]

/-- What a state that is not BUSY has to meet. -/
theorem engineInv_of_notBusy (hr : t.RST = false) (hb : t.PHASE ≠ .busy) (hu : t.UOP = 0x3F) (hl : t.LEN.toNat < 2 ^ 61)
    (hn : t.NEED2 = true → t.FIN = true ∧ 56 ≤ t.NB.toNat) (hd : t.PHASE = .done → t.FIN = true)
    (he : t.ERR_TOOLARGE = true ↔ t.PHASE = .error) (hw : t.PHASE = .ready ∨ t.PHASE = .error → t.LEN.toNat % 64 = 0) :
    EngineInv t where
  busyIffMicroOp := by simp [hb, hu]
  lenBounded := hl
  need2Tail := hn
  uopLegal := by simp [hu]
  doneFinal := hd
  tooLargeIffError := he
  wholeBlocks := hw
  blockInProgress := fun h => absurd h hb
  pad1OfFinal := by simp [hu]
  heldInReset := by simp [hr]

/-- R250 meets the invariants, whatever the level of RST, the elements and the reads are. -/
theorem engineInv_resetRegs (s : State) : EngineInv (resetRegs s) where
  busyIffMicroOp := by simp [State.reset]
  lenBounded := by simp [State.reset]
  need2Tail := by simp [State.reset]
  uopLegal := by simp [State.reset]
  doneFinal := by simp [State.reset]
  tooLargeIffError := by simp [State.reset]
  wholeBlocks := by simp [State.reset]
  blockInProgress := by simp [State.reset]
  pad1OfFinal := by simp [State.reset]
  heldInReset := fun _ => rfl

/-- The invariants do not speak of the interleaving or of what the host got back. -/
theorem EngineInv.withWorld (h : EngineInv s) (evs : List Event) (words : List Word) :
    EngineInv { s with events := evs, reads := words } where
  busyIffMicroOp := h.busyIffMicroOp
  lenBounded := h.lenBounded
  need2Tail := h.need2Tail
  uopLegal := h.uopLegal
  doneFinal := h.doneFinal
  tooLargeIffError := h.tooLargeIffError
  wholeBlocks := h.wholeBlocks
  blockInProgress := h.blockInProgress
  pad1OfFinal := h.pad1OfFinal
  heldInReset := fun hr => congrArg (fun s : State => { s with events := evs, reads := words }) (h.heldInReset hr)

/-- With RST released they do not speak of X, ERR_CMD and ERR_BUSY either. -/
theorem EngineInv.withData (h : EngineInv s) (hr : s.RST = false) (x : MsgBuf) (errCmd errBusy : Bool) :
    EngineInv { s with X := x, ERR_CMD := errCmd, ERR_BUSY := errBusy } where
  busyIffMicroOp := h.busyIffMicroOp
  lenBounded := h.lenBounded
  need2Tail := h.need2Tail
  uopLegal := h.uopLegal
  doneFinal := h.doneFinal
  tooLargeIffError := h.tooLargeIffError
  wholeBlocks := h.wholeBlocks
  blockInProgress := h.blockInProgress
  pad1OfFinal := h.pad1OfFinal
  heldInReset := by simp [hr]

/-! ### The invariants under one instruction -/

/-- `t` is at work on the same command as `s`: what an accepted BLOCK or FINAL has latched is the same. -/
structure SameCommand (s t : State) : Prop where
  phase : t.PHASE = s.PHASE
  len : t.LEN = s.LEN
  fin : t.FIN = s.FIN
  nb : t.NB = s.NB
  tooLarge : t.ERR_TOOLARGE = s.ERR_TOOLARGE
  rst : t.RST = s.RST

/-- A micro-op of the running command that goes on to another one than PAD1 and the reserved ones keeps the invariants. -/
theorem EngineInv.afterMicroOp (h : EngineInv s) (hr : s.RST = false) (hb : s.PHASE = .busy) (same : SameCommand s t)
    (hu : t.UOP.toNat ≤ 0x31 ∨ t.UOP = 0x33) (hn : t.NEED2 = true → s.FIN = true ∧ 56 ≤ s.NB.toNat) : EngineInv t := by
  obtain ⟨phase, len, fin, nb, tooLarge, rst⟩ := same
  have legal : t.UOP.toNat < 0x34 ∧ t.UOP ≠ 0x32 := by
    rcases hu with hu | hu
    · exact ⟨by omega, fun hpad => by simp [hpad] at hu⟩
    · simp [hu]
  refine engineInv_of_busy (rst.trans hr) (phase.trans hb) legal.1 ?_ ?_ ?_ ?_ (absurd · legal.2)
  · exact len ▸ h.lenBounded
  · exact fin ▸ nb ▸ hn
  · exact tooLarge.trans (h.tooLarge_of_notError (by simp [hb]))
  · exact fin ▸ len ▸ h.blockInProgress hb

/-- The end of a block (R154): PHASE becomes DONE for a FINAL, and READY, with whole blocks counted, for a BLOCK. -/
theorem EngineInv.afterFfwd (h : EngineInv s) (hr : s.RST = false) (hb : s.PHASE = .busy) (q : Quad) :
    EngineInv { s.setQuad q with UOP := 0x3F, PHASE := if s.FIN then .done else .ready } := by
  have noError : s.ERR_TOOLARGE = false := h.tooLarge_of_notError (by simp [hb])
  cases hf : s.FIN with
  | true => exact engineInv_of_notBusy hr nofun rfl h.lenBounded h.need2Tail (fun _ => hf) (by simp [noError]) (by simp)
  | false =>
    exact engineInv_of_notBusy hr nofun rfl h.lenBounded h.need2Tail nofun (by simp [noError])
      fun _ => h.blockInProgress hb hf

/-- The instruction may run in this state: a host access always, a micro-op but IDLE only when a released, BUSY engine has
selected it (R157). -/
def Selected (i : Instr) (s : State) : Prop :=
  i.isMicroOp = true → i ≠ .idle → s.RST = false ∧ s.PHASE = .busy ∧ encode i = .uop s.UOP

theorem selected_nextMicroOp (s : State) : Selected (nextMicroOp s) s := by
  intro _ hidle
  by_cases h : s.RST = false ∧ s.PHASE = .busy
  · rw [nextMicroOp_of_busy h.1 h.2]
    exact ⟨h.1, h.2, encode_decodeUop s.UOP⟩
  · exact absurd (if_neg h) hidle

theorem selected_of_hostAccess {i : Instr} (hi : i.isMicroOp = false) (s : State) : Selected i s := by
  intro hm
  simp [hi] at hm

/-- A step of a round keeps the invariants: the counter moves on within the rounds, at most to FFWD. -/
theorem EngineInv.afterRoundStep (h : EngineInv s) (hr : s.RST = false) (hb : s.PHASE = .busy) (r : Round) (k : Fin 16)
    {round : BitVec 2} (hround : round ≠ 0b11) (hu : .uop (round ++ (BitVec.ofFin k : BitVec 4)) = Code.uop s.UOP) :
    EngineInv (roundStep r k s) := by
  have hu : round ++ (BitVec.ofFin k : BitVec 4) = s.UOP := Code.uop.inj hu
  have bound := stepUop_succ_le round k hround
  rw [hu] at bound
  exact h.afterMicroOp hr hb ⟨rfl, rfl, rfl, rfl, rfl, rfl⟩ (.inl (Nat.le_trans bound (by decide))) h.need2Tail

theorem EngineInv.afterEffect {i : Instr} (h : EngineInv s) (sel : Selected i s) (he : Effect i s t) : EngineInv t := by
  cases he with
  | read w _ => exact h.withWorld s.events (w :: s.reads)
  | nothing _ => exact h
  | errBusy hr _ _ => exact h.withData hr s.X s.ERR_CMD true
  | errReserved hr _ _ => exact h.withData hr s.X true s.ERR_BUSY
  | errPhase hr _ _ => exact h.withData hr s.X true s.ERR_BUSY
  | errTooLarge hr hp _ =>
    have idle : s.UOP = 0x3F := h.uop_of_notBusy (by simp [hp])
    exact engineInv_of_notBusy hr nofun idle h.lenBounded h.need2Tail nofun (by simp) fun _ => h.wholeBlocks (.inl hp)
  | init v _ _ => exact engineInv_resetRegs s
  | block v hr hp hl =>
    have whole : s.LEN.toNat % 64 = 0 := h.wholeBlocks (.inl hp)
    have len : (s.LEN + 64).toNat = s.LEN.toNat + 64 := accepted_len hl
    exact engineInv_of_busy hr rfl (by simp) (lt_of_eq_of_lt len hl) nofun (h.tooLarge_of_notError (by simp [hp]))
      (fun _ => by simp [whole]) nofun
  | final v hr hp hl =>
    exact engineInv_of_busy hr rfl (by simp) (lt_of_eq_of_lt (accepted_len hl) hl) nofun
      (h.tooLarge_of_notError (by simp [hp])) nofun fun _ => rfl
  | wrMsg j v hr _ => exact h.withData hr (s.X.set j v) s.ERR_CMD s.ERR_BUSY
  | pad1Short _ =>
    obtain ⟨hr, hb, _⟩ := sel rfl nofun
    exact h.afterMicroOp hr hb ⟨rfl, rfl, rfl, rfl, rfl, rfl⟩ (.inl (by simp)) nofun
  | pad1Long hn =>
    obtain ⟨hr, hb, hu⟩ := sel rfl nofun
    have final : s.FIN = true := h.pad1OfFinal (Code.uop.inj hu).symm
    exact h.afterMicroOp hr hb ⟨rfl, rfl, rfl, rfl, rfl, rfl⟩ (.inl (by simp)) fun _ => ⟨final, hn⟩
  | pad2 =>
    obtain ⟨hr, hb, _⟩ := sel rfl nofun
    exact h.afterMicroOp hr hb ⟨rfl, rfl, rfl, rfl, rfl, rfl⟩ (.inl (by simp)) nofun
  | save =>
    obtain ⟨hr, hb, _⟩ := sel rfl nofun
    exact h.afterMicroOp hr hb ⟨rfl, rfl, rfl, rfl, rfl, rfl⟩ (.inl (by simp)) h.need2Tail
  | stepR1 k =>
    obtain ⟨hr, hb, hu⟩ := sel rfl nofun
    exact h.afterRoundStep hr hb .r1 k (by decide) hu
  | stepR2 k =>
    obtain ⟨hr, hb, hu⟩ := sel rfl nofun
    exact h.afterRoundStep hr hb .r2 k (by decide) hu
  | stepR3 k =>
    obtain ⟨hr, hb, hu⟩ := sel rfl nofun
    exact h.afterRoundStep hr hb .r3 k (by decide) hu
  | ffwdMore _ _ =>
    obtain ⟨hr, hb, _⟩ := sel rfl nofun
    exact h.afterMicroOp hr hb ⟨rfl, rfl, rfl, rfl, rfl, rfl⟩ (.inr rfl) h.need2Tail
  | ffwdEnd _ =>
    obtain ⟨hr, hb, _⟩ := sel rfl nofun
    exact h.afterFfwd hr hb _

/-! ### The invariants under one step and along a run -/

theorem EngineInv.withEvents (h : EngineInv s) (evs : List Event) : EngineInv { s with events := evs } :=
  h.withWorld evs s.reads

theorem EngineInv.afterRst (h : EngineInv s) (level : Bool) : EngineInv (applyRst level s) := by
  unfold applyRst
  split
  · exact engineInv_resetRegs { s with RST := level }
  · exact h

theorem EngineInv.afterStep (h : EngineInv s) (hs : step s = .next t) : EngineInv t := by
  have selectedTurn (rest : List Event) : Selected (nextMicroOp s) { s with events := rest } :=
    selected_nextMicroOp { s with events := rest }
  obtain ⟨-, he⟩ | ⟨rest, -, he⟩ | ⟨w, rest, -, he⟩ | ⟨we, off, data, rest, -, he⟩ | ⟨level, rest, -, rfl⟩ := step_cases hs
  · exact h.afterEffect (selected_nextMicroOp s) (exec_effect he)
  · exact (h.withEvents rest).afterEffect (selectedTurn rest) (exec_effect he)
  · exact (h.withEvents rest).afterEffect (selected_of_hostAccess (decodeBus_isHostAccess w) _) (exec_effect he)
  · exact (h.withEvents rest).afterEffect (selected_of_hostAccess (decodeBus_isHostAccess _) _) (exec_effect he)
  · exact (h.withEvents rest).afterRst level

theorem EngineInv.afterRun {k : Nat} (h : EngineInv s) (hk : Sys2Proof.core.run k s = .next t) : EngineInv t := by
  induction k generalizing s with
  | zero => cases hk; exact h
  | succ k ih =>
    rw [run_succ] at hk
    cases hs : step s with
    | next s' => rw [hs] at hk; exact ih (h.afterStep hs) hk
    | fault r => rw [hs] at hk; cases hk
    | refused r => rw [hs] at hk; cases hk

end

/-- Settles O47: an instruction's effect keeps the invariants case by case, and the step only runs what UOP selects, a host
access, or the RST input. -/
theorem stepKeepsTheInvariants : Obligations.StepKeepsTheInvariants := fun _ _ h hs => h.afterStep hs

/-- Settles O48: these states are what R250 gives with those elements placed. -/
theorem resetSatisfiesTheInvariants : Obligations.ResetSatisfiesTheInvariants := fun evs =>
  engineInv_resetRegs { State.reset with events := evs }

/-- Settles O49, by induction on the run from reset. -/
theorem reachableStatesSatisfyR31 : Obligations.ReachableStatesSatisfyR31 := by
  rintro s ⟨evs, k, hk⟩
  exact ((resetSatisfiesTheInvariants evs).afterRun hk).toSpecInv

/-! ### No step faults -/

/-- A legal value of UOP (I4) selects none of the reserved rows (R77). -/
theorem decodeUop_notReserved : ∀ u : BitVec 6, ¬(0x34 ≤ u.toNat ∧ u.toNat ≤ 0x3E) →
    (∀ k, decodeUop u ≠ .uopRsvd34 k) ∧ (∀ k, decodeUop u ≠ .uopRsvd38 k) ∧ (∀ k, decodeUop u ≠ .uopRsvd3C k) ∧
      decodeUop u ≠ .uopRsvd3E := by
  decide

theorem exec_decodeUop_of_legal {u : BitVec 6} (hu : ¬(0x34 ≤ u.toNat ∧ u.toNat ≤ 0x3E)) (s : State) :
    ∃ t, exec (decodeUop u) s = .next t := by
  obtain ⟨not34, not38, not3C, not3E⟩ := decodeUop_notReserved u hu
  cases he : exec (decodeUop u) s with
  | next t => exact ⟨t, rfl⟩
  | refused r => exact absurd he exec_not_refused
  | fault r =>
    obtain ⟨k, hi⟩ | ⟨k, hi⟩ | ⟨k, hi⟩ | hi := exec_fault he
    · exact absurd hi (not34 k)
    · exact absurd hi (not38 k)
    · exact absurd hi (not3C k)
    · exact absurd hi not3E

theorem exec_decodeBus_next (t : BitVec 39) (s : State) : ∃ s', exec (decodeBus t) s = .next s' :=
  ⟨_, exec_decodeBus t s⟩

theorem step_of_rst {s : State} {level : Bool} {rest : List Event} (h : s.events = .rst level :: rest) :
    step s = .next (applyRst level { s with events := rest }) := by
  simp only [step, fetch, h]

/-- The engine's turn has a next state where the invariants hold (R157, R231). -/
theorem SpecInv.turn_next {s : State} (h : SpecInv s) (evs : List Event) :
    ∃ t, exec (nextMicroOp s) { s with events := evs } = .next t := by
  unfold nextMicroOp
  split
  · exact exec_decodeUop_of_legal h.uopLegal _
  · exact ⟨_, exec_idle _⟩

/-- Under the invariants a step answers a next state, or refuses an access that is not one aligned word of the window. -/
theorem SpecInv.step_answers {s : State} (h : SpecInv s) :
    (∃ t, step s = .next t) ∨ ∃ e rest r, s.events = e :: rest ∧ e.served = false ∧ step s = .refused r := by
  cases he : s.events with
  | nil => rw [step_of_noEvents he]; exact .inl (h.turn_next s.events)
  | cons e rest =>
    cases e with
    | engine => rw [step_of_engine he]; exact .inl (h.turn_next rest)
    | bus t => rw [step_of_bus he]; exact .inl (exec_decodeBus_next t _)
    | rst level => exact .inl ⟨_, step_of_rst he⟩
    | mem we off size v =>
      by_cases ho : 256 ≤ off
      · exact .inr ⟨_, _, _, rfl, by simp [Event.served, ho], step_of_mem_outside he ho⟩
      · by_cases hw : size = 4 ∧ off % 4 = 0
        · obtain ⟨rfl, ha⟩ := hw
          rw [step_of_mem_word he (by omega) ha]
          exact .inl (exec_decodeBus_next _ _)
        · refine .inr ⟨_, _, _, rfl, ?_, step_of_mem_notWord he (by omega) (by omega)⟩
          simp only [Event.served, Bool.and_eq_false_iff, beq_eq_false_iff_ne]
          omega

/-- Settles O50: a step that has no next state is a refusal, and of an element that is not served. -/
theorem noStepFaultsUnderTheInvariants : Obligations.NoStepFaultsUnderTheInvariants := by
  intro s h
  obtain ⟨t, ht⟩ | ⟨e, rest, r, he, notServed, hr⟩ := h.toSpecInv.step_answers
  · exact ⟨fun _ => by simp [ht], fun _ => ⟨t, ht⟩⟩
  · exact ⟨fun _ => by simp [hr], fun served => by simp [served e rest he] at notServed⟩

/-! ### The error flags (R33, R220, R221) -/

theorem encode_of_isCtrlWrite {i : Instr} (h : i.isCtrlWrite = true) : ∃ v, encode i = .bus (busWrite .ctrl v) := by
  cases i with
  | nop v | init v | block v | final v | ctrlRsvd01xx v | ctrlRsvd1xxx v => exact ⟨v, rfl⟩
  | _ => cases h

section
variable {i : Instr} {s t : State}

/-- Only an INIT that is performed clears an error flag. -/
theorem Effect.errorFlags_sticky (h : Effect i s t) (notInit : ∀ v, i ≠ .init v ∨ s.PHASE = .busy) :
    (s.ERR_CMD = true → t.ERR_CMD = true) ∧ (s.ERR_BUSY = true → t.ERR_BUSY = true) ∧
      (s.ERR_TOOLARGE = true → t.ERR_TOOLARGE = true) := by
  cases h with
  | init v _ hb => exact absurd rfl ((notInit v).resolve_right hb)
  | errBusy => exact ⟨id, fun _ => rfl, id⟩
  | errReserved | errPhase => exact ⟨fun _ => rfl, id, id⟩
  | errTooLarge => exact ⟨id, id, fun _ => rfl⟩
  | _ => exact ⟨id, id, id⟩

theorem Effect.errCmd_cause (h : Effect i s t) (hs : s.ERR_CMD = false) (ht : t.ERR_CMD = true) :
    s.PHASE ≠ .busy ∧ ∃ v, i = .ctrlRsvd01xx v ∨ i = .ctrlRsvd1xxx v ∨
      (i = .block v ∨ i = .final v) ∧ (s.PHASE = .done ∨ s.PHASE = .error) := by
  cases h with
  | errReserved _ hb hi =>
    obtain ⟨v, hi⟩ := hi
    exact ⟨hb, v, hi.imp_right .inl⟩
  | errPhase _ hp hi =>
    obtain ⟨v, hi⟩ := hi
    exact ⟨fun hb => by simp [hb] at hp, v, .inr (.inr ⟨hi, hp⟩)⟩
  | init => exact absurd ht Bool.false_ne_true
  | _ => exact absurd (hs.symm.trans ht) Bool.false_ne_true

theorem Effect.errBusy_cause (h : Effect i s t) (hs : s.ERR_BUSY = false) (ht : t.ERR_BUSY = true) :
    s.PHASE = .busy ∧ ((∃ v, encode i = .bus (busWrite .ctrl v)) ∨ ∃ j v, i = .wrMsg j v) := by
  cases h with
  | errBusy _ hb hi => exact ⟨hb, hi.imp_left encode_of_isCtrlWrite⟩
  | init => exact absurd ht Bool.false_ne_true
  | _ => exact absurd (hs.symm.trans ht) Bool.false_ne_true

theorem Effect.errTooLarge_cause (h : Effect i s t) (hs : s.ERR_TOOLARGE = false) (ht : t.ERR_TOOLARGE = true) :
    s.PHASE = .ready ∧ t.PHASE = .error ∧ ∃ v, i = .block v ∧ 2 ^ 61 ≤ s.LEN.toNat + 64 ∨
      i = .final v ∧ 2 ^ 61 ≤ s.LEN.toNat + (ctrlNbytes v).toNat := by
  cases h with
  | errTooLarge _ hp hi => exact ⟨hp, rfl, hi⟩
  | init => exact absurd ht Bool.false_ne_true
  | _ => exact absurd (hs.symm.trans ht) Bool.false_ne_true

end

/-- Settles O53, flag by flag over what an instruction can do. -/
theorem errorFlagsAreStickyAndCaused : Obligations.ErrorFlagsAreStickyAndCaused := by
  intro i s t h notInit
  have he : Effect i s t := exec_effect h
  obtain ⟨cmd, busy, tooLarge⟩ := he.errorFlags_sticky notInit
  exact ⟨cmd, busy, tooLarge, he.errCmd_cause, he.errBusy_cause, he.errTooLarge_cause⟩

/-! ### FINAL and the length limit (R136) -/

/-- Whole blocks below 2^61 leave room for any NBYTES. -/
theorem EngineInv.final_fits {s : State} (h : EngineInv s) (hp : s.PHASE = .ready) (n : BitVec 6) :
    s.LEN.toNat + n.toNat < 2 ^ 61 := by
  have bounded := h.lenBounded
  have whole := h.wholeBlocks (.inl hp)
  have small := n.isLt
  omega

theorem exec_final_accepted {s : State} {v : Word} (hr : s.RST = false) (hp : s.PHASE = .ready)
    (hl : s.LEN.toNat + (ctrlNbytes v).toNat < 2 ^ 61) :
    exec (.final v) s = .next { s with
      LEN := s.LEN + BitVec.ofNat 64 (ctrlNbytes v).toNat, FIN := true, NB := ctrlNbytes v, NEED2 := false, UOP := 0x32
      PHASE := .busy } := by
  rw [exec, execFinal, ctrlWrite_notBusy hr (by simp [hp]), acceptCommand_accepted hp hl]

/-- Settles O56: the limit is a multiple of 64 and so is LEN, so NBYTES fits and FINAL is no cause of ErrTooLarge. -/
theorem finalIsNeverTooLargeUnderTheInvariants : Obligations.FinalIsNeverTooLargeUnderTheInvariants := by
  intro s h
  refine ⟨fun v hr hp => ?_, fun i t hi hs ht => ?_⟩
  · have fits := h.final_fits hp (ctrlNbytes v)
    exact ⟨_, exec_final_accepted hr hp fits, rfl, accepted_len fits, h.tooLarge_of_notError (by simp [hp])⟩
  · obtain ⟨hp, -, v, ⟨hi, -⟩ | ⟨-, tooLarge⟩⟩ := (exec_effect hi).errTooLarge_cause hs ht
    · exact ⟨v, hi⟩
    · exact absurd (h.final_fits hp (ctrlNbytes v)) (Nat.not_lt.mpr tooLarge)

/-! ### The writers of each register -/

theorem isMicroOp_of_isCtrlWrite {i : Instr} (h : i.isCtrlWrite = true) : i.isMicroOp = false := by
  obtain ⟨v, hv⟩ := encode_of_isCtrlWrite h
  rw [Instr.isMicroOp, hv]

section
variable {i : Instr} {s t : State} (h : Effect i s t)
include h

theorem Effect.quad_writers (hq : t.quad ≠ s.quad) : i.mnemonic ∈ ["INIT", "STEP_R1", "STEP_R2", "STEP_R3", "FFWD"] := by
  cases h with
  | init | stepR1 | stepR2 | stepR3 | ffwdMore | ffwdEnd => simp [Instr.mnemonic]
  | _ => exact absurd rfl hq

theorem Effect.saved_writers (hq : t.saved ≠ s.saved) : i.mnemonic ∈ ["INIT", "SAVE"] := by
  cases h with
  | init | save => simp [Instr.mnemonic]
  | _ => exact absurd rfl hq

theorem Effect.x_writers (hx : t.X ≠ s.X) : i.mnemonic ∈ ["INIT", "WR_MSG", "PAD1", "PAD2"] := by
  cases h with
  | init | wrMsg | pad1Short | pad1Long | pad2 => simp [Instr.mnemonic]
  | _ => exact absurd rfl hx

theorem Effect.len_writers (hl : t.LEN ≠ s.LEN) : i.mnemonic ∈ ["INIT", "BLOCK", "FINAL"] := by
  cases h with
  | init | block | final => simp [Instr.mnemonic]
  | _ => exact absurd rfl hl

theorem Effect.phase_writers (hp : t.PHASE ≠ s.PHASE) : i.mnemonic ∈ ["INIT", "BLOCK", "FINAL", "FFWD"] := by
  cases h with
  | init | block | final | ffwdEnd => simp [Instr.mnemonic]
  | errTooLarge _ _ hi => obtain ⟨v, ⟨rfl, -⟩ | ⟨rfl, -⟩⟩ := hi <;> simp [Instr.mnemonic]
  | _ => exact absurd rfl hp

theorem Effect.uop_writers (hu : t.UOP ≠ s.UOP) : i.mnemonic ∈ ["INIT", "BLOCK", "FINAL"] ∨ i.isMicroOp = true := by
  cases h with
  | init | block | final => simp [Instr.mnemonic]
  | pad1Short | pad1Long | pad2 | save | stepR1 | stepR2 | stepR3 | ffwdMore | ffwdEnd => exact .inr rfl
  | _ => exact absurd rfl hu

theorem Effect.fin_writers (hf : t.FIN ≠ s.FIN) : i.mnemonic ∈ ["INIT", "BLOCK", "FINAL"] := by
  cases h with
  | init | block | final => simp [Instr.mnemonic]
  | _ => exact absurd rfl hf

theorem Effect.nb_writers (hn : t.NB ≠ s.NB) : i.mnemonic ∈ ["INIT", "BLOCK", "FINAL"] := by
  cases h with
  | init | block | final => simp [Instr.mnemonic]
  | _ => exact absurd rfl hn

theorem Effect.need2_writers (hn : t.NEED2 ≠ s.NEED2) : i.mnemonic ∈ ["INIT", "BLOCK", "FINAL", "PAD1", "PAD2"] := by
  cases h with
  | init | block | final | pad1Short | pad1Long | pad2 => simp [Instr.mnemonic]
  | _ => exact absurd rfl hn

/-- No micro-op touches an error flag: the effects that do are the host's. -/
theorem Effect.errorFlags_of_microOp (hm : i.isMicroOp = true) :
    t.ERR_CMD = s.ERR_CMD ∧ t.ERR_BUSY = s.ERR_BUSY ∧ t.ERR_TOOLARGE = s.ERR_TOOLARGE := by
  cases h with
  | errBusy _ _ hi =>
    obtain hi | ⟨j, v, rfl⟩ := hi
    · simp [isMicroOp_of_isCtrlWrite hi] at hm
    · cases hm
  | errReserved _ _ hi => obtain ⟨v, rfl | rfl⟩ := hi <;> cases hm
  | errPhase _ _ hi => obtain ⟨v, rfl | rfl⟩ := hi <;> cases hm
  | errTooLarge _ _ hi => obtain ⟨v, ⟨rfl, -⟩ | ⟨rfl, -⟩⟩ := hi <;> cases hm
  | init => cases hm
  | _ => exact ⟨rfl, rfl, rfl⟩

theorem Effect.rst_events : t.RST = s.RST ∧ t.events = s.events := by
  cases h <;> exact ⟨rfl, rfl⟩

end

/-- Settles O54, register by register over what an instruction can do. -/
theorem onlyTheNamedInstructionsWriteEachRegister : Obligations.OnlyTheNamedInstructionsWriteEachRegister := by
  intro i s t h
  have he : Effect i s t := exec_effect h
  exact ⟨he.quad_writers, he.saved_writers, he.x_writers, he.len_writers, he.phase_writers, he.uop_writers, he.fin_writers,
    he.nb_writers, he.need2_writers, he.errorFlags_of_microOp, he.rst_events⟩

/-! ### What the window reads -/

/-- A read right after reset returns what the register shows of the state of R250. -/
theorem exec_decodeRead_reset (r : Reg) :
    exec (decodeRead r) State.reset = .next { State.reset with reads := [readView State.reset r] } :=
  exec_decodeRead r State.reset

theorem msgView_reset (j : Fin 16) : msgView j State.reset = 0 := by
  simp [msgView, State.reset]

/-- Settles O7: each register's view of the state of R250 is its value in the last column of R35. -/
theorem registersReadAfterReset : Obligations.RegistersReadAfterReset :=
  ⟨exec_decodeRead_reset .ctrl, exec_decodeRead_reset .status, exec_decodeRead_reset .lenLo, exec_decodeRead_reset .lenHi,
    exec_decodeRead_reset (.digest 0), exec_decodeRead_reset (.digest 1), exec_decodeRead_reset (.digest 2),
    exec_decodeRead_reset (.digest 3), fun j => msgView_reset j ▸ exec_decodeRead_reset (.msg j),
    fun k => exec_decodeRead_reset (.rsvd20 k), fun k => exec_decodeRead_reset (.rsvd80 k)⟩

/-- The one-bit fields of R34. -/
theorem statusWord_flags (s : State) :
    (statusWord s).getLsbD 0 = (s.PHASE == .busy) ∧ (statusWord s).getLsbD 1 = (s.PHASE == .done) ∧
    (statusWord s).getLsbD 2 = s.ERR_CMD ∧ (statusWord s).getLsbD 3 = s.ERR_BUSY ∧
    (statusWord s).getLsbD 4 = s.ERR_TOOLARGE ∧ (statusWord s).getLsbD 22 = s.FIN ∧ (statusWord s).getLsbD 23 = s.NEED2 := by
  unfold statusWord
  simp only [BitVec.getLsbD_append, Nat.reduceLT, if_true, if_false, Nat.reduceSub, BitVec.getLsbD_ofBool]
  simp

/-- The wider fields of R34, the reserved ones among them. -/
theorem statusWord_fields (s : State) :
    (statusWord s).extractLsb' 5 3 = 0 ∧ (statusWord s).extractLsb' 8 2 = s.PHASE.code ∧
    (statusWord s).extractLsb' 10 6 = 0 ∧ (statusWord s).extractLsb' 16 6 = s.UOP ∧
    (statusWord s).extractLsb' 24 6 = s.NB ∧ (statusWord s).extractLsb' 30 2 = 0 := by
  unfold statusWord
  simp only [BitVec.extractLsb'_append_eq_of_le, BitVec.extractLsb'_append_eq_of_add_le, Nat.reduceLeDiff, Nat.reduceSub,
    BitVec.extractLsb'_eq_self]
  decide

theorem exec_rdStatus {s : State} (hr : s.RST = false) :
    exec .rdStatus s = .next { s with reads := statusWord s :: s.reads } :=
  hostRead_released hr (statusWord s)

/-- Settles O18: the read returns the status word, and its fields are cut out of the concatenation of R34. -/
theorem statusWordFields : Obligations.StatusWordFields := by
  refine ⟨decodeBus_busRead .status, decodeBus_busWrite .status, fun _ s => hostWrite_nothing s,
    exec_decodeRead_reset .status, fun s hr => ⟨statusWord s, exec_rdStatus hr, ?_⟩⟩
  obtain ⟨busy, done, errCmd, errBusy, tooLarge, fin, need2⟩ := statusWord_flags s
  obtain ⟨rsvd5, phase, rsvd10, uop, nb, rsvd30⟩ := statusWord_fields s
  have phase : (statusWord s).extractLsb' 8 2 = match s.PHASE with | .ready => 0 | .busy => 1 | .done => 2 | .error => 3 := by
    rw [phase]
    cases s.PHASE <;> rfl
  exact ⟨by rw [busy, beq_iff_eq], by rw [done, beq_iff_eq], errCmd, errBusy, tooLarge, rsvd5, phase, rsvd10, uop, fin, need2,
    nb, rsvd30⟩

end Sys2Proof.Machine
end

section
/-! PROOFS. The statements of spec/20_memory.md: the bytes of messages, blocks and digests (R53 to R55, R137), what a host access
leaves unchanged (R57), and the independence of the interleaving (R201) and of the instances (R62). -/

namespace Sys2Proof

/-! ### The bytes of the padded blocks (R53, R54) -/

theorem byteLane_bitLenLo (len : BitVec 64) {k : Nat} (hk : k < 4) :
    byteLane (bitLenLo len) k = (bitLen len).extractLsb' (8 * k) 8 := by
  rw [byteLane, bitLenLo, BitVec.extractLsb'_extractLsb'_of_le (by omega)]

theorem byteLane_bitLenHi (len : BitVec 64) {k : Nat} (hk : k < 4) :
    byteLane (bitLenHi len) k = (bitLen len).extractLsb' (8 * (4 + k)) 8 := by
  refine BitVec.eq_of_getLsbD_eq fun i hi => ?_
  have inWord : 8 * k + i < 32 := by omega
  have offset : 32 + (8 * k + i) = 8 * (4 + k) + i := by omega
  rw [byteLane_getLsbD, bitLenHi, BitVec.getLsbD_extractLsb', BitVec.getLsbD_extractLsb', offset]
  simp [inWord]

/-- Bytes 56 to 63 of a block that carries the length are the bit length, least significant byte first. -/
theorem byte_putLength_above (x : MsgBuf) (len : BitVec 64) {j : Fin 64} (h : 56 ≤ j.val) :
    (x.putLength len).byte j = (bitLen len).extractLsb' (8 * (j.val - 56)) 8 := by
  have lane : j.val % 4 < 4 := Nat.mod_lt _ (by decide)
  rcases (by omega : j.val / 4 = 14 ∨ j.val / 4 = 15) with word | word
  · have low : j.val - 56 = j.val % 4 := by omega
    simp only [MsgBuf.byte, word, putLength_14, low]
    exact byteLane_bitLenLo len lane
  · have high : j.val - 56 = 4 + j.val % 4 := by omega
    simp only [MsgBuf.byte, word, putLength_15, high]
    exact byteLane_bitLenHi len lane

theorem byte_replicate_zero (j : Fin 64) : MsgBuf.byte (Vector.replicate 16 0) j = 0x00 := by
  simp [MsgBuf.byte, byteLane]

/-- Below the length, the block of PAD2 is zeros (R133). -/
theorem byte_lengthOnly_below (len : BitVec 64) {j : Fin 64} (h : j.val < 56) : (MsgBuf.lengthOnly len).byte j = 0x00 :=
  (byte_putLength_below _ len h).trans (byte_replicate_zero j)

theorem bitLen_ofNat (n : Nat) : bitLen (BitVec.ofNat 64 n) = BitVec.ofNat 64 (8 * n) :=
  (BitVec.ofNat_mul 8 n).symm

end Sys2Proof

namespace Sys2Proof.Machine

/-- Byte lane `k` of the word read at offset `o` is byte `o + k` (R53). -/
theorem byteLane_le32 (p : List Byte) (o : Nat) {k : Nat} (hk : k < 4) : byteLane (le32 p o) k = p.getD (o + k) 0 := by
  rcases (by omega : k = 0 ∨ k = 1 ∨ k = 2 ∨ k = 3) with rfl | rfl | rfl | rfl <;> simp [le32]

/-- Byte `j` of block `b` is byte `64 b + j` of the sequence (R53). -/
theorem byte_blockOf (p : List Byte) (b : Nat) (j : Fin 64) : (blockOf p b).byte j = p.getD (64 * b + j.val) 0 := by
  have offset : 64 * b + 4 * (j.val / 4) + j.val % 4 = 64 * b + j.val := by omega
  simp only [MsgBuf.byte, blockOf, Vector.getElem_ofFn]
  rw [byteLane_le32 p _ (Nat.mod_lt _ (by decide)), offset]

/-! ### The bytes of P(m) (R130) -/

section PaddedMessage

variable (m : List Byte)

theorem padMessage_getElem?_message {o : Nat} (h : o < m.length) : (padMessage m)[o]? = m[o]? := by
  simp only [padMessage, List.append_assoc]
  exact List.getElem?_append_left h

theorem padMessage_getElem?_mark : (padMessage m)[m.length]? = some 0x80 := by
  simp [padMessage]

theorem padMessage_getElem?_zeros {o : Nat} (lo : m.length < o) (hi : o < m.length + 1 + padZeros m.length) :
    (padMessage m)[o]? = some 0x00 := by
  have inZeros : o - (m.length + 1) < padZeros m.length := by omega
  rw [padMessage, List.getElem?_append_left (by simp; omega), List.getElem?_append_right (by simp; omega)]
  simp [inZeros]

theorem padMessage_getElem?_length {k : Nat} (hk : k < 8) :
    (padMessage m)[m.length + 1 + padZeros m.length + k]? = some ((BitVec.ofNat 64 (8 * m.length)).extractLsb' (8 * k) 8) := by
  have before : (m ++ [0x80] ++ List.replicate (padZeros m.length) 0x00).length = m.length + 1 + padZeros m.length := by
    simp; omega
  rw [padMessage, List.getElem?_append_right (by omega), before, Nat.add_sub_cancel_left]
  simp [le64, hk]

end PaddedMessage

/-! ### PAD1 and PAD2 build the last blocks of P(m) (R137) -/

section LastBlocks

variable {m : List Byte} {x : MsgBuf} {nb : BitVec 6}

/-- The buffer holds the tail of the message: byte `j` below L mod 64 is byte `64 (L div 64) + j` of it. -/
def HoldsTail (m : List Byte) (x : MsgBuf) : Prop :=
  ∀ j : Fin 64, j.val < m.length % 64 → m[64 * (m.length / 64) + j.val]? = some (x.byte j)

/-- What PAD1 leaves below the length is P(m), as far as its zeros go. -/
theorem byte_padTail_of_holdsTail (tail : HoldsTail m x) (hn : nb.toNat = m.length % 64) {j : Fin 64}
    (hj : 64 * (m.length / 64) + j.val < m.length + 1 + padZeros m.length) :
    (x.padTail nb).byte j = (padMessage m).getD (64 * (m.length / 64) + j.val) 0 := by
  have split := Nat.div_add_mod m.length 64
  rw [byte_padTail, hn, List.getD_eq_getElem?_getD]
  rcases Nat.lt_trichotomy j.val (m.length % 64) with h | h | h
  · rw [if_pos h, padMessage_getElem?_message m (by omega), tail j h, Option.getD_some]
  · have mark : 64 * (m.length / 64) + j.val = m.length := by omega
    rw [if_neg (by omega), if_pos h, mark, padMessage_getElem?_mark, Option.getD_some]
  · rw [if_neg (by omega), if_neg (by omega), padMessage_getElem?_zeros m (by omega) hj, Option.getD_some]

/-- The last eight bytes of P(m) are those that R54 puts into a block. -/
theorem byte_putLength_of_lengthBytes {b : Nat} {j : Fin 64} (h : 56 ≤ j.val)
    (hb : 64 * b + 56 = m.length + 1 + padZeros m.length) :
    (x.putLength (BitVec.ofNat 64 m.length)).byte j = (padMessage m).getD (64 * b + j.val) 0 := by
  have offset : 64 * b + j.val = m.length + 1 + padZeros m.length + (j.val - 56) := by omega
  rw [byte_putLength_above _ _ h, bitLen_ofNat, List.getD_eq_getElem?_getD, offset, padMessage_getElem?_length m (by omega),
    Option.getD_some]

/-- n ≤ 55: the tail and the length share the last block. -/
theorem putLength_padTail_eq_blockOf (tail : HoldsTail m x) (hn : nb.toNat = m.length % 64) (short : m.length % 64 ≤ 55) :
    (x.padTail nb).putLength (BitVec.ofNat 64 m.length) = blockOf (padMessage m) (m.length / 64) := by
  have lengthAt : 64 * (m.length / 64) + 56 = m.length + 1 + padZeros m.length := by unfold padZeros; omega
  refine msgBuf_ext_byte fun j => ?_
  rw [byte_blockOf]
  by_cases h : j.val < 56
  · rw [byte_putLength_below _ _ h, byte_padTail_of_holdsTail tail hn (by omega)]
  · exact byte_putLength_of_lengthBytes (by omega) lengthAt

/-- 56 ≤ n: the tail has a block of its own. -/
theorem padTail_eq_blockOf (tail : HoldsTail m x) (hn : nb.toNat = m.length % 64) (long : 56 ≤ m.length % 64) :
    x.padTail nb = blockOf (padMessage m) (m.length / 64) := by
  refine msgBuf_ext_byte fun j => ?_
  rw [byte_blockOf, byte_padTail_of_holdsTail tail hn (by unfold padZeros; omega)]

/-- 56 ≤ n: the length comes in a block after it. -/
theorem lengthOnly_eq_blockOf (long : 56 ≤ m.length % 64) :
    MsgBuf.lengthOnly (BitVec.ofNat 64 m.length) = blockOf (padMessage m) (m.length / 64 + 1) := by
  have lengthAt : 64 * (m.length / 64 + 1) + 56 = m.length + 1 + padZeros m.length := by unfold padZeros; omega
  refine msgBuf_ext_byte fun j => ?_
  rw [byte_blockOf]
  by_cases h : j.val < 56
  · rw [byte_lengthOnly_below _ h, List.getD_eq_getElem?_getD, padMessage_getElem?_zeros m (by omega) (by omega),
      Option.getD_some]
  · exact byte_putLength_of_lengthBytes (by omega) lengthAt

end LastBlocks

theorem exec_pad1_short {s : State} (h : s.NB.toNat ≤ 55) :
    exec .pad1 s = .next { s with X := (s.X.padTail s.NB).putLength s.LEN, NEED2 := false, UOP := 0x31 } :=
  if_pos h

theorem exec_pad1_long {s : State} (h : 56 ≤ s.NB.toNat) :
    exec .pad1 s = .next { s with X := s.X.padTail s.NB, NEED2 := true, UOP := 0x31 } :=
  if_neg (by omega)

theorem exec_pad2 (s : State) : exec .pad2 s = .next { s with X := MsgBuf.lengthOnly s.LEN, NEED2 := false, UOP := 0x31 } := rfl

theorem blockCount_of_short {len : Nat} (h : len % 64 ≤ 55) : blockCount len = len / 64 + 1 := by
  unfold blockCount; omega

theorem blockCount_of_long {len : Nat} (h : 56 ≤ len % 64) : blockCount len = len / 64 + 2 := by
  unfold blockCount; omega

/-- Settles O42: by whether the length fits behind the tail, each block compared with P(m) byte by byte. -/
theorem paddingBuildsTheBlocksOfThePaddedMessage : Obligations.PaddingBuildsTheBlocksOfThePaddedMessage := by
  intro m s _ hlen hn tail
  by_cases short : m.length % 64 ≤ 55
  · exact ⟨_, exec_pad1_short (hn ▸ short), hlen ▸ putLength_padTail_eq_blockOf tail hn short,
      fun _ => blockCount_of_short short, fun long => by omega⟩
  · have long : 56 ≤ m.length % 64 := by omega
    exact ⟨_, exec_pad1_long (hn ▸ long), padTail_eq_blockOf tail hn long, fun h => by omega,
      fun _ => ⟨blockCount_of_long long, _, exec_pad2 _, hlen ▸ lengthOnly_eq_blockOf long⟩⟩

/-! ### The digest as bytes (R55, R199) -/

/-- Outside BUSY and ERROR the window shows A to D. -/
theorem digestView_done {s : State} (h : s.PHASE = .done) (n : Fin 4) : digestView n s = s.quad.get (digestReg n) := by
  simp only [digestView, h]

theorem digestBytes_done {s : State} (h : s.PHASE = .done) : digestBytes s = quadBytes s.quad := by
  have words : List.finRange 4 = [0, 1, 2, 3] := by decide
  simp only [digestBytes, digestView_done h, words, List.flatMap_cons, List.flatMap_nil, List.append_nil, quadBytes,
    List.append_assoc]
  rfl

theorem quad_get_digestReg (s : State) (n : Fin 4) : s.quad.get (digestReg n) = [s.A, s.B, s.C, s.D][n] := by
  fin_cases n <;> rfl

/-- Byte `4 n + k` of a running state is lane `k` of its word `n`. -/
theorem quadBytes_getElem? (q : Quad) (n k : Fin 4) :
    (quadBytes q)[4 * n.val + k.val]? = some (byteLane (q.get (digestReg n)) k.val) := by
  fin_cases n <;> fin_cases k <;> rfl

/-- Settles O45, from the view of DIGESTn in DONE. -/
theorem digestBytesAreLittleEndian : Obligations.DigestBytesAreLittleEndian := by
  intro s hr hp
  rw [digestBytes_done hp]
  refine ⟨rfl, fun n k => ⟨?_, ?_⟩⟩
  · rw [quadBytes_getElem?, quad_get_digestReg]
    rfl
  · rw [← quad_get_digestReg, ← digestView_done hp]
    exact hostRead_released hr _

/-! ### The frame of a host access (R57) -/

section HostWrites

variable (v : Word) (s : State) (evs : List Event) (words : List Word)

theorem acceptCommand_withWorld (n : Nat) (fin : Bool) (nb uop : BitVec 6) :
    acceptCommand n fin nb uop { s with events := evs, reads := words } =
      { acceptCommand n fin nb uop s with events := evs, reads := words } := by
  unfold acceptCommand
  split
  · rfl
  · split <;> rfl

theorem ctrlEffect_withWorld :
    ctrlEffect v { s with events := evs, reads := words } = { ctrlEffect v s with events := evs, reads := words } := by
  unfold ctrlEffect
  split_ifs
  · rfl
  · rfl
  · rfl
  · exact acceptCommand_withWorld s evs words 64 false 0 0x31
  · exact acceptCommand_withWorld s evs words _ true _ 0x32

/-- No write reads or changes the interleaving or what the host got back. -/
theorem writeEffect_withWorld (r : Reg) :
    writeEffect v { s with events := evs, reads := words } r = { writeEffect v s r with events := evs, reads := words } := by
  cases r with
  | ctrl =>
    by_cases hb : s.PHASE = .busy
    · simp only [writeEffect, if_pos hb]
    · simp only [writeEffect, if_neg hb, ctrlEffect_withWorld]
  | msg j =>
    by_cases hb : s.PHASE = .busy
    · simp only [writeEffect, if_pos hb]
    · simp only [writeEffect, if_neg hb]
  | _ => rfl

theorem writeEffect_reads (r : Reg) : (writeEffect v s r).reads = s.reads :=
  (congrArg State.reads (writeEffect_withWorld v s s.events s.reads r) :)

/-- Only CTRL and MSG writes have an effect (R189, R192, R194, R198). -/
theorem writeEffect_ignored {off : BitVec 6} (notCtrl : off ≠ 0b000000) (notMsg : off.extractLsb' 4 2 ≠ 0b01) :
    writeEffect v s (decodeOff off) = s := by
  have roundTrip := off_decodeOff off
  cases hreg : decodeOff off with
  | ctrl =>
    rw [hreg] at roundTrip
    exact absurd roundTrip.symm notCtrl
  | msg j =>
    rw [hreg] at roundTrip
    refine absurd ?_ notMsg
    rw [← roundTrip]
    exact (by decide : ∀ j, (Reg.msg j).off.extractLsb' 4 2 = 0b01) j
  | _ => rfl

/-- A MSG write changes at most its own word and ERR_BUSY (R196). -/
theorem writeEffect_msg_frame (j : Fin 16) :
    writeEffect v s (.msg j) = { s with X := (writeEffect v s (.msg j)).X, ERR_BUSY := (writeEffect v s (.msg j)).ERR_BUSY } ∧
      ∀ k : Fin 16, k ≠ j → (writeEffect v s (.msg j)).X[k] = s.X[k] := by
  by_cases hb : s.PHASE = .busy
  · simp [writeEffect, hb]
  · have others (k : Fin 16) (hk : k ≠ j) : (s.X.set j v)[k] = s.X[k] :=
      Vector.getElem_set_ne _ _ fun h => hk (Fin.ext h.symm)
    simpa [writeEffect, hb] using others

end HostWrites

/-- Settles O22: while RST is asserted a write has no effect; otherwise its effect is the one of the register its offset names. -/
theorem hostAccessFrame : Obligations.HostAccessFrame := by
  intro t s
  refine ⟨_, exec_decodeBus t s, fun read => ⟨_, by rw [read]; rfl⟩, fun write => ?_⟩
  rw [if_pos write]
  by_cases hr : s.RST = true
  · rw [if_pos hr]
    exact ⟨rfl, fun _ _ => rfl, fun _ _ => ⟨rfl, fun _ _ => rfl⟩⟩
  · rw [if_neg hr]
    refine ⟨writeEffect_reads _ s _, writeEffect_ignored _ s, fun j hoff => ?_⟩
    have reg : decodeOff (busOff t) = .msg j := hoff ▸ decodeOff_off (.msg j)
    rw [reg]
    exact writeEffect_msg_frame _ s j

/-! ### Instances share nothing (R52, R62, R230) -/

/-- A step of engine `k` writes at most its own place on the platform. -/
theorem stepInstance_next {k : Nat} {p p' : Platform} (h : stepInstance k p = .next p') : p' = p ∨ ∃ s', p' = p.set k s' := by
  unfold stepInstance at h
  split at h
  · cases h; exact .inl rfl
  · split at h
    · cases h; exact .inr ⟨_, rfl⟩
    · cases h
    · cases h

section Routing

variable {we : Bool} {addr size : Nat} {v : Word} {p : Platform}

/-- The access is issued to an engine whose window holds its start address. -/
theorem hostIssues_routed {k : Nat} (hk : (List.range p.length).find? (fun k => windowHolds k addr) = some k) :
    hostIssues we addr size v p =
      .next (p.modify k fun s => { s with events := s.events ++ [.mem we (addr - Config.md4ceBase k) size v] }) := by
  simp only [hostIssues, hk]

/-- Where no window holds the start address, the access is refused if it reaches into a window, and ends nowhere if not. -/
theorem hostIssues_unrouted (h : ∀ k, k < p.length → windowHolds k addr = false) :
    hostIssues we addr size v p =
      if (List.range p.length).any (fun k => windowTouched k addr size) then .refused .narrowAccess else .next p := by
  have unfound : (List.range p.length).find? (fun k => windowHolds k addr) = none := by simpa using h
  simp only [hostIssues, unfound]

/-- Either some window holds the start address, and the first such one is found, or none does. -/
theorem windowHolds_cases (p : Platform) (addr : Nat) :
    (∃ k, (List.range p.length).find? (fun k => windowHolds k addr) = some k ∧ windowHolds k addr = true) ∨
      ∀ k, k < p.length → windowHolds k addr = false := by
  cases h : (List.range p.length).find? (fun k => windowHolds k addr) with
  | some k => exact .inl ⟨k, rfl, List.find?_some (p := fun k => windowHolds k addr) h⟩
  | none => exact .inr (by simpa using h)

theorem hostIssues_frame {p' : Platform} {j : Nat} (h : hostIssues we addr size v p = .next p')
    (hj : windowHolds j addr = false) : p'[j]? = p[j]? := by
  obtain ⟨k, found, holds⟩ | unheld := windowHolds_cases p addr
  · rw [hostIssues_routed found] at h
    cases h
    have other : k ≠ j := fun e => by rw [e, hj] at holds; cases holds
    exact List.getElem?_modify_ne _ _ other
  · rw [hostIssues_unrouted unheld] at h
    split at h
    · cases h
    · cases h; rfl

theorem hostIssues_of_held {k : Nat} (hk : k < p.length) (held : windowHolds k addr = true) :
    ∃ p', hostIssues we addr size v p = .next p' := by
  obtain ⟨_, found, -⟩ | unheld := windowHolds_cases p addr
  · exact ⟨_, hostIssues_routed found⟩
  · rw [unheld k hk] at held; cases held

end Routing

/-- Settles O58, by whether the start address lies in a window of the platform. -/
theorem instancesShareNothing : Obligations.InstancesShareNothing := by
  refine ⟨fun k j p p' h hj => ?_, fun we addr size v p => ⟨fun p' j => hostIssues_frame, fun k => hostIssues_of_held,
    fun unheld => ⟨fun ⟨k, hk, touched⟩ => ?_, fun untouched => ?_⟩⟩⟩
  · obtain rfl | ⟨s', rfl⟩ := stepInstance_next h
    · rfl
    · exact List.getElem?_set_ne (Ne.symm hj)
  · have reaches : (List.range p.length).any (fun k => windowTouched k addr size) = true :=
      List.any_eq_true.mpr ⟨k, List.mem_range.mpr hk, touched⟩
    rw [hostIssues_unrouted unheld, if_pos reaches]
  · have apart : (List.range p.length).any (fun k => windowTouched k addr size) = false := by simpa using untouched
    rw [hostIssues_unrouted unheld, apart]
    rfl

end Sys2Proof.Machine

namespace Sys2Proof

/-! ### The 48 steps in the order of the counter (R155, R159) -/

/-- The round of the step at UOP = k (UOP[5:4], R75). -/
def roundAt (k : Nat) : Round := if k < 16 then .r1 else if k < 32 then .r2 else .r3

/-- The micro-op of a step. -/
def stepInstr : Round → Fin 16 → Instr
  | .r1, i => .stepR1 i
  | .r2, i => .stepR2 i
  | .r3, i => .stepR3 i

/-- The first `k` of the 48 steps. -/
def Quad.firstSteps (x : MsgBuf) (q : Quad) : Nat → Quad
  | 0 => q
  | k + 1 => (q.firstSteps x k).roundStep (roundAt k) (Fin.ofNat 16 k) x

theorem compress_eq_firstSteps (q : Quad) (x : MsgBuf) : Machine.compress q x = q.add (q.firstSteps x 48) := rfl

theorem decodeUop_step {k : Nat} (hk : k < 48) : decodeUop (BitVec.ofNat 6 k) = stepInstr (roundAt k) (Fin.ofNat 16 k) :=
  (by decide : ∀ k : Fin 48, decodeUop (BitVec.ofNat 6 k) = stepInstr (roundAt k) (Fin.ofNat 16 k)) ⟨k, hk⟩

theorem Quad.add_comm (p q : Quad) : p.add q = q.add p := by
  simp [Quad.add, add32, BitVec.add_comm]

end Sys2Proof

namespace Sys2Proof.Machine

/-! ### Turns of the engine -/

theorem engineTurns_zero (s : State) : engineTurns 0 s = .next { s with events := [] } := rfl

theorem engineTurns_one (s : State) : engineTurns 1 s = exec (nextMicroOp s) { s with events := [] } := by
  have turn : step { s with events := [.engine] } = exec (nextMicroOp s) { s with events := [] } := rfl
  rw [engineTurns, List.replicate_one, runEvents_cons, turn, exec_withEvents]
  cases exec (nextMicroOp s) s <;> rfl

theorem engineTurns_add (j k : Nat) (s : State) : engineTurns (j + k) s = andThen (engineTurns j s) (engineTurns k) := by
  rw [engineTurns, List.replicate_add, runEvents_append]
  rfl

theorem engineTurns_notBusy {s : State} (hb : s.PHASE ≠ .busy) (n : Nat) : engineTurns n s = .next { s with events := [] } := by
  induction n with
  | zero => rfl
  | succ n ih =>
    have turn : nextMicroOp { s with events := [] } = .idle := nextMicroOp_of_notBusy hb
    rw [engineTurns_add, ih, andThen_next, engineTurns_one, turn, exec_idle]

/-! ### One block: SAVE, the 48 steps, FFWD (R156, R159) -/

/-- The state after SAVE and the first `k` steps of a block. -/
def State.inRounds (s : State) (k : Nat) : State :=
  { s.setQuad (s.quad.firstSteps s.X k) with AA := s.A, BB := s.B, CC := s.C, DD := s.D, UOP := BitVec.ofNat 6 k, events := [] }

/-- The state after a block: the new chaining value in A to D, the old one in AA to DD. -/
def State.afterBlock (s : State) (q : Quad) (uop : BitVec 6) (phase : Phase) : State :=
  { s.setQuad q with AA := s.A, BB := s.B, CC := s.C, DD := s.D, UOP := uop, PHASE := phase, events := [] }

section AfterBlock

variable (s : State) (q : Quad) (uop : BitVec 6) (phase : Phase)

@[simp] theorem afterBlock_quad : (s.afterBlock q uop phase).quad = q := rfl
@[simp] theorem afterBlock_saved : (s.afterBlock q uop phase).saved = s.quad := rfl
@[simp] theorem afterBlock_X : (s.afterBlock q uop phase).X = s.X := rfl
@[simp] theorem afterBlock_LEN : (s.afterBlock q uop phase).LEN = s.LEN := rfl
@[simp] theorem afterBlock_PHASE : (s.afterBlock q uop phase).PHASE = phase := rfl
@[simp] theorem afterBlock_UOP : (s.afterBlock q uop phase).UOP = uop := rfl
@[simp] theorem afterBlock_FIN : (s.afterBlock q uop phase).FIN = s.FIN := rfl
@[simp] theorem afterBlock_NEED2 : (s.afterBlock q uop phase).NEED2 = s.NEED2 := rfl
@[simp] theorem afterBlock_NB : (s.afterBlock q uop phase).NB = s.NB := rfl
@[simp] theorem afterBlock_ERR_CMD : (s.afterBlock q uop phase).ERR_CMD = s.ERR_CMD := rfl
@[simp] theorem afterBlock_ERR_BUSY : (s.afterBlock q uop phase).ERR_BUSY = s.ERR_BUSY := rfl
@[simp] theorem afterBlock_ERR_TOOLARGE : (s.afterBlock q uop phase).ERR_TOOLARGE = s.ERR_TOOLARGE := rfl
@[simp] theorem afterBlock_RST : (s.afterBlock q uop phase).RST = s.RST := rfl
@[simp] theorem afterBlock_events : (s.afterBlock q uop phase).events = [] := rfl
@[simp] theorem afterBlock_reads : (s.afterBlock q uop phase).reads = s.reads := rfl

end AfterBlock

section Block

variable {s : State}

theorem exec_stepInstr (r : Round) (i : Fin 16) (s : State) : exec (stepInstr r i) s = .next (roundStep r i s) := by
  cases r <;> rfl

/-- A step of the rounds takes the state in the rounds to the next one. -/
theorem roundStep_inRounds (k : Nat) : roundStep (roundAt k) (Fin.ofNat 16 k) (s.inRounds k) = s.inRounds (k + 1) := by
  have counter : BitVec.ofNat 6 k + 1 = BitVec.ofNat 6 (k + 1) := (BitVec.ofNat_add k 1).symm
  unfold State.inRounds
  rw [← counter]
  rfl

theorem inRounds_noEvents (k : Nat) : { s.inRounds k with events := [] } = s.inRounds k := rfl

theorem exec_ffwd_more (hf : s.FIN = true) (hn : s.NEED2 = true) :
    exec .ffwd s = .next { s.setQuad (s.quad.add s.saved) with UOP := 0x33 } :=
  if_pos ⟨hf, hn⟩

theorem exec_ffwd_end (h : ¬(s.FIN = true ∧ s.NEED2 = true)) : exec .ffwd s =
    .next { s.setQuad (s.quad.add s.saved) with UOP := 0x3F, PHASE := if s.FIN then .done else .ready } :=
  if_neg h

theorem inRounds_add_saved (k : Nat) : (s.inRounds k).quad.add (s.inRounds k).saved = s.quad.add (s.quad.firstSteps s.X k) :=
  Quad.add_comm _ _

theorem ffwd_inRounds_more (k : Nat) (hf : s.FIN = true) (hn : s.NEED2 = true) : exec .ffwd (s.inRounds k) =
    .next (s.afterBlock (s.quad.add (s.quad.firstSteps s.X k)) 0x33 s.PHASE) := by
  rw [exec_ffwd_more (s := s.inRounds k) hf hn, inRounds_add_saved]
  rfl

theorem ffwd_inRounds_end (k : Nat) (h : ¬(s.FIN = true ∧ s.NEED2 = true)) : exec .ffwd (s.inRounds k) =
    .next (s.afterBlock (s.quad.add (s.quad.firstSteps s.X k)) 0x3F (if s.FIN then .done else .ready)) := by
  rw [exec_ffwd_end (s := s.inRounds k) h, inRounds_add_saved]
  rfl

variable (hr : s.RST = false) (hb : s.PHASE = .busy) (hu : s.UOP = 0x31)
include hr hb

theorem nextMicroOp_inRounds (k : Nat) : nextMicroOp (s.inRounds k) = decodeUop (BitVec.ofNat 6 k) :=
  nextMicroOp_of_busy (s := s.inRounds k) hr hb

include hu

theorem engineTurns_inRounds {k : Nat} (hk : k ≤ 48) : engineTurns (k + 1) s = .next (s.inRounds k) := by
  induction k with
  | zero =>
    have save : decodeUop 0x31 = .save := by decide
    rw [engineTurns_one, nextMicroOp_of_busy hr hb, hu, save]
    rfl
  | succ k ih =>
    rw [engineTurns_add, ih (Nat.le_of_succ_le hk), andThen_next, engineTurns_one, inRounds_noEvents,
      nextMicroOp_inRounds hr hb, decodeUop_step hk, exec_stepInstr, roundStep_inRounds]

/-- The fiftieth turn is FFWD. -/
theorem engineTurns_fifty : engineTurns 50 s = exec .ffwd (s.inRounds 48) := by
  have ffwd : decodeUop (BitVec.ofNat 6 48) = .ffwd := by decide
  rw [engineTurns_add 49 1, engineTurns_inRounds hr hb hu (Nat.le_refl 48), andThen_next, engineTurns_one, inRounds_noEvents,
    nextMicroOp_inRounds hr hb, ffwd]

/-- A block of a FINAL that needs a second one goes on to PAD2. -/
theorem engineTurns_toPad2 (hf : s.FIN = true) (hn : s.NEED2 = true) :
    engineTurns 50 s = .next (s.afterBlock (compress s.quad s.X) 0x33 .busy) := by
  rw [engineTurns_fifty hr hb hu, ffwd_inRounds_more 48 hf hn, hb, ← compress_eq_firstSteps]

/-- Any other block ends the command. -/
theorem engineTurns_toEnd (h : ¬(s.FIN = true ∧ s.NEED2 = true)) : engineTurns 50 s =
    .next (s.afterBlock (compress s.quad s.X) 0x3F (if s.FIN then .done else .ready)) := by
  rw [engineTurns_fifty hr hb hu, ffwd_inRounds_end 48 h, ← compress_eq_firstSteps]

end Block

/-! ### A command completes by the engine's turns alone -/

/-- The engine alone, started in `s`, comes to rest in `t`. -/
def Completes (s t : State) : Prop := ∃ n, engineTurns n s = .next t ∧ t.PHASE ≠ .busy

section Completion

variable {s t u : State}

theorem completes_of_notBusy (he : s.events = []) (hb : s.PHASE ≠ .busy) : Completes s s :=
  ⟨0, by rw [engineTurns_zero, ← he], hb⟩

/-- A state at rest is where the engine stays. -/
theorem Completes.eq_of_notBusy (h : Completes s t) (he : s.events = []) (hb : s.PHASE ≠ .busy) : t = s := by
  obtain ⟨n, run, -⟩ := h
  rw [engineTurns_notBusy hb] at run
  cases run
  rw [← he]

/-- Turns taken first lead to the same end. -/
theorem Completes.before {n : Nat} (run : engineTurns n s = .next t) (h : Completes t u) : Completes s u := by
  obtain ⟨k, rest, hb⟩ := h
  exact ⟨n + k, by rw [engineTurns_add, run, andThen_next, rest], hb⟩

/-- One turn does not change where the engine comes to rest. -/
theorem Completes.afterTurn (h : Completes s u) (he : s.events = []) (turn : exec (nextMicroOp s) s = .next t) :
    Completes t u := by
  by_cases hb : s.PHASE = .busy
  · obtain ⟨n, run, hu⟩ := h
    cases n with
    | zero =>
      rw [engineTurns_zero] at run
      cases run
      exact absurd hb hu
    | succ n =>
      have one : engineTurns 1 s = .next t := by rw [engineTurns_one, ← he, ← turn]
      rw [Nat.add_comm, engineTurns_add, one, andThen_next] at run
      exact ⟨n, run, hu⟩
  · rw [nextMicroOp_of_notBusy hb, exec_idle] at turn
    cases turn
    exact h

end Completion

/-! ### The registers, without the interleaving and the reads -/

/-- The spec's part of the state. -/
def State.registers (s : State) : State := { s with events := [], reads := [] }

/-- A micro-op reads and writes registers only. -/
theorem exec_registers_of_microOp {i : Instr} (hi : i.isMicroOp = true) (s : State) :
    exec i s.registers = andThen (exec i s) fun t => .next t.registers := by
  cases i with
  | pad1 =>
    rcases Nat.lt_or_ge s.NB.toNat 56 with h | h
    · rw [exec_pad1_short (s := s.registers) (Nat.le_of_lt_succ h), exec_pad1_short (Nat.le_of_lt_succ h)]
      rfl
    · rw [exec_pad1_long (s := s.registers) h, exec_pad1_long h]
      rfl
  | ffwd =>
    by_cases h : s.FIN = true ∧ s.NEED2 = true
    · rw [exec_ffwd_more (s := s.registers) h.1 h.2, exec_ffwd_more h.1 h.2]
      rfl
    · rw [exec_ffwd_end (s := s.registers) h, exec_ffwd_end h]
      rfl
  | save | pad2 | idle | uopRsvd3E => rfl
  | stepR1 k | stepR2 k | stepR3 k | uopRsvd34 k | uopRsvd38 k | uopRsvd3C k => rfl
  | _ => cases hi

theorem nextMicroOp_isMicroOp (s : State) : (nextMicroOp s).isMicroOp = true := by
  unfold nextMicroOp
  split
  · rw [Instr.isMicroOp, encode_decodeUop]
  · rfl

/-- A write of the host reads and writes registers only. -/
theorem exec_registers_of_write {w : BitVec 39} (hw : busWe w = true) (s : State) :
    exec (decodeBus w) s.registers = andThen (exec (decodeBus w) s) fun t => .next t.registers := by
  have rst : s.registers.RST = s.RST := rfl
  rw [exec_decodeBus, exec_decodeBus, if_pos hw, if_pos hw, rst, andThen_next]
  by_cases hr : s.RST = true
  · rw [if_pos hr, if_pos hr]
  · rw [if_neg hr, if_neg hr]
    exact congrArg Host.Outcome.next (writeEffect_withWorld (busData w) s [] [] (decodeOff (busOff w)))

theorem next_of_andThen {r : Result} {f : State → Result} {t : State} (h : andThen r f = .next t) :
    ∃ s, r = .next s ∧ f s = .next t := by
  cases r with
  | next s => exact ⟨s, rfl, h⟩
  | fault e => cases h
  | refused e => cases h

/-! ### Commands one after the other -/

/-- The writes run one after the other, each from where the engine came to rest after the one before. -/
inductive Commands : List (BitVec 39) → State → State → Prop
  | nil (s : State) : Commands [] s s
  | cons {w : BitVec 39} {ws : List (BitVec 39)} {s t u v : State} (write : exec (decodeBus w) s = .next t)
      (rest : Completes t u) (more : Commands ws u v) : Commands (w :: ws) s v

section Commands

variable {ws vs : List (BitVec 39)} {s t u : State}

theorem Commands.append (h : Commands ws s t) (h' : Commands vs t u) : Commands (ws ++ vs) s u := by
  induction h with
  | nil s => exact h'
  | cons write rest _ ih => exact .cons write rest (ih h')

theorem commands_single {w : BitVec 39} (write : exec (decodeBus w) s = .next t) (rest : Completes t u) : Commands [w] s u :=
  .cons write rest (.nil u)

end Commands

/-- R201, for any writes: whatever the host reads and whenever the engine moves, a run whose writes wait for the engine and that
ends at rest ends with the registers that the writes, each run to completion, lead to. -/
theorem runEvents_registers {evs : List Event} {s t a u : State} (port : portOnly evs = true) (waits : HostWaits evs s)
    (run : runEvents evs s = .next t) (ht : t.PHASE ≠ .busy) (ha : Completes s.registers a)
    (hc : Commands (writesOf evs) a u) : t.registers = u := by
  induction evs generalizing s a with
  | nil =>
    cases run
    cases hc
    exact (ha.eq_of_notBusy rfl ht).symm
  | cons e es ih =>
    rw [runEvents_cons] at run
    obtain ⟨s', first, runRest⟩ := next_of_andThen run
    obtain ⟨waitsHere, waitsAfter⟩ := waits
    have waitsRest := waitsAfter s' first
    have portRest : portOnly es = true := (Bool.and_eq_true_iff.mp port).2
    cases e with
    | mem we off size data => cases port
    | rst level => cases port
    | engine =>
      have turn : exec (nextMicroOp s.registers) s.registers = .next s'.registers := by
        have same := exec_registers_of_microOp (nextMicroOp_isMicroOp s) { s with events := [] }
        have turn : exec (nextMicroOp s) { s with events := [] } = .next s' := first
        rw [turn, andThen_next] at same
        exact same
      exact ih portRest waitsRest runRest (ha.afterTurn rfl turn) hc
    | bus w =>
      have access : exec (decodeBus w) { s with events := [] } = .next s' := first
      cases hw : busWe w with
      | false =>
        rw [exec_decodeBus, hw] at access
        cases access
        have writes : writesOf (.bus w :: es) = writesOf es := by simp [writesOf, hw]
        exact ih portRest waitsRest runRest ha (writes ▸ hc)
      | true =>
        have writes : writesOf (.bus w :: es) = w :: writesOf es := by simp [writesOf, hw]
        have atRest : a = s.registers := ha.eq_of_notBusy rfl (waitsHere hw)
        rw [writes, atRest] at hc
        cases hc with
        | cons write rest more =>
          have same := exec_registers_of_write hw { s with events := [] }
          rw [access, andThen_next] at same
          cases write.symm.trans same
          exact ih portRest waitsRest runRest rest more

end Sys2Proof.Machine

namespace Sys2Proof

/-! ### Message words stored one by one -/

/-- `X[k] <- f(k)` for each k of the list. -/
def MsgBuf.store (f : Fin 16 → Word) (x : MsgBuf) (ks : List (Fin 16)) : MsgBuf :=
  ks.foldl (fun x (k : Fin 16) => x.set k (f k)) x

theorem getElem_store (f : Fin 16 → Word) (x : MsgBuf) (ks : List (Fin 16)) (j : Fin 16) :
    (x.store f ks)[j] = if j ∈ ks then f j else x[j] := by
  induction ks generalizing x with
  | nil => rfl
  | cons k ks ih =>
    refine (ih (x.set k (f k))).trans ?_
    by_cases hj : j ∈ ks
    · rw [if_pos hj, if_pos (List.mem_cons_of_mem k hj)]
    · rw [if_neg hj]
      by_cases hk : j = k
      · rw [hk, if_pos List.mem_cons_self]
        exact Vector.getElem_set_self _
      · have other : k.val ≠ j.val := fun e => hk (Fin.ext e.symm)
        rw [if_neg (by simp [hj, hk])]
        exact Vector.getElem_set_ne _ _ other

end Sys2Proof

namespace Sys2Proof.Machine

/-! ### The blocks of the message itself (R53, R130) -/

theorem padMessage_getD_message (m : List Byte) {o : Nat} (h : o < m.length) : (padMessage m).getD o 0 = m.getD o 0 := by
  rw [List.getD_eq_getElem?_getD, padMessage_getElem?_message m h, List.getD_eq_getElem?_getD]

/-- A full block of the message is that block of P(m). -/
theorem blockOf_padMessage_full (m : List Byte) {b : Nat} (hb : b < m.length / 64) : blockOf (padMessage m) b = blockOf m b :=
  msgBuf_ext_byte fun j => by rw [byte_blockOf, byte_blockOf, padMessage_getD_message m (by omega)]

theorem store_finRange_eq_blockOf (m : List Byte) (b : Nat) (x : MsgBuf) :
    x.store (fun k => le32 m (64 * b + 4 * k.val)) (List.finRange 16) = blockOf m b := by
  refine Vector.ext fun i hi => ?_
  have stored := getElem_store (fun k => le32 m (64 * b + 4 * k.val)) x (List.finRange 16) ⟨i, hi⟩
  rw [if_pos (List.mem_finRange _)] at stored
  rw [blockOf, Vector.getElem_ofFn]
  exact stored

/-- The words of the tail hold its bytes, whatever the last word's other bytes are. -/
theorem holdsTail_store (m junk : List Byte) (x : MsgBuf) :
    HoldsTail m (x.store (fun k => le32 (m ++ junk) (m.length - m.length % 64 + 4 * k.val))
      ((List.finRange 16).filter fun k => k.val < (m.length % 64 + 3) / 4)) := by
  intro j hj
  have stored := getElem_store (fun k => le32 (m ++ junk) (m.length - m.length % 64 + 4 * k.val)) x
    ((List.finRange 16).filter fun k => k.val < (m.length % 64 + 3) / 4) ⟨j.val / 4, by omega⟩
  have written : j.val / 4 < (m.length % 64 + 3) / 4 := by omega
  have offset : m.length - m.length % 64 + 4 * (j.val / 4) + j.val % 4 = 64 * (m.length / 64) + j.val := by omega
  have inMessage : 64 * (m.length / 64) + j.val < m.length := by omega
  rw [if_pos (by simpa using written)] at stored
  rw [MsgBuf.byte]
  refine Eq.trans ?_ (congrArg (fun w => some (byteLane w (j.val % 4))) stored).symm
  rw [byteLane_le32 _ _ (Nat.mod_lt _ (by decide)), offset, List.getD_eq_getElem?_getD, List.getElem?_append_left inMessage,
    List.getElem?_eq_getElem inMessage, Option.getD_some]

/-- The chaining value after the first `b` blocks of P(m) (R159). -/
def chainingValue (m : List Byte) (b : Nat) : Quad :=
  (List.range b).foldl (fun h b => compress h (blockOf (padMessage m) b)) iv

theorem chainingValue_succ (m : List Byte) (b : Nat) :
    chainingValue m (b + 1) = compress (chainingValue m b) (blockOf (padMessage m) b) := by
  rw [chainingValue, List.range_succ, List.foldl_append]
  rfl

theorem md4State_eq_chainingValue (m : List Byte) : md4State m = chainingValue m (blockCount m.length) := rfl

/-! ### The writes of HASH(m), each run to completion (R200) -/

/-- No error flag is set. -/
def NoFlags (s : State) : Prop := s.ERR_CMD = false ∧ s.ERR_BUSY = false ∧ s.ERR_TOOLARGE = false

theorem noErrors_of_noFlags {s : State} (h : NoFlags s) : noErrors s = true := by
  obtain ⟨cmd, busy, tooLarge⟩ := h
  obtain ⟨-, -, bit2, bit3, bit4, -, -⟩ := statusWord_flags s
  rw [cmd] at bit2
  rw [busy] at bit3
  rw [tooLarge] at bit4
  refine beq_iff_eq.mpr (BitVec.eq_of_getLsbD_eq fun i hi => ?_)
  rcases (by omega : i = 0 ∨ i = 1 ∨ i = 2) with rfl | rfl | rfl <;>
    simp only [BitVec.getLsbD_extractLsb', Nat.reduceAdd, bit2, bit3, bit4, Bool.and_false, BitVec.ofNat_eq_ofNat,
      BitVec.getLsbD_zero]

/-- READY between two blocks: `b` blocks of the message are counted and compressed. -/
structure AfterBlocks (m : List Byte) (b : Nat) (s : State) : Prop where
  rst : s.RST = false
  ready : s.PHASE = .ready
  len : s.LEN = BitVec.ofNat 64 (64 * b)
  quad : s.quad = chainingValue m b
  flags : NoFlags s
  noEvents : s.events = []

/-- The digest is there: what R201 says of the end of a run. -/
structure HoldsDigest (m : List Byte) (s : State) : Prop where
  done : s.PHASE = .done
  quad : s.quad = md4State m
  len : s.LEN = BitVec.ofNat 64 m.length
  flags : NoFlags s

section Writes

variable {m : List Byte} {s : State}

theorem exec_init_write (hr : s.RST = false) (hb : s.PHASE ≠ .busy) :
    exec (decodeBus (busWrite .ctrl 0x1)) s = .next (resetRegs s) := by
  have init : decodeCtrl 0x1 = .init 0x1 := by decide
  rw [decodeBus_busWrite, decodeWrite, init]
  exact ctrlWrite_notBusy hr hb resetRegs

theorem exec_block_write (hr : s.RST = false) (hp : s.PHASE = .ready) (hl : s.LEN.toNat + 64 < 2 ^ 61) :
    exec (decodeBus (busWrite .ctrl 0x2)) s = .next { s with
      LEN := s.LEN + BitVec.ofNat 64 64, FIN := false, NB := 0, NEED2 := false, UOP := 0x31, PHASE := .busy } := by
  have block : decodeCtrl 0x2 = .block 0x2 := by decide
  rw [decodeBus_busWrite, decodeWrite, block, exec, execBlock, ctrlWrite_notBusy hr (by simp [hp]),
    acceptCommand_accepted hp hl]

theorem exec_final_write {n : Nat} (hn : n < 64) (hr : s.RST = false) (hp : s.PHASE = .ready)
    (hl : s.LEN.toNat + n < 2 ^ 61) :
    exec (decodeBus (busWrite .ctrl (finalWord n))) s = .next { s with
      LEN := s.LEN + BitVec.ofNat 64 n, FIN := true, NB := BitVec.ofNat 6 n, NEED2 := false, UOP := 0x32, PHASE := .busy } := by
  have final : decodeCtrl (finalWord n) = .final (finalWord n) :=
    (by decide : ∀ n : Fin 64, decodeCtrl (finalWord n) = .final (finalWord n)) ⟨n, hn⟩
  have nbytes : ctrlNbytes (finalWord n) = BitVec.ofNat 6 n :=
    (by decide : ∀ n : Fin 64, ctrlNbytes (finalWord n) = BitVec.ofNat 6 n) ⟨n, hn⟩
  have value : (ctrlNbytes (finalWord n)).toNat = n := by rw [nbytes, BitVec.toNat_ofNat, Nat.mod_eq_of_lt hn]
  rw [decodeBus_busWrite, decodeWrite, final, exec_final_accepted hr hp (value.symm ▸ hl), value, nbytes]

theorem exec_msg_write (hr : s.RST = false) (hb : s.PHASE ≠ .busy) (k : Fin 16) (v : Word) :
    exec (decodeBus (busWrite (.msg k) v)) s = .next { s with X := s.X.set k v } := by
  rw [decodeBus_busWrite, exec_decodeWrite]
  simp [writeEffect, hr, hb]

/-- MSG writes at rest store their words. -/
theorem commands_msgWrites (f : Fin 16 → Word) (ks : List (Fin 16)) (hr : s.RST = false) (hb : s.PHASE ≠ .busy)
    (he : s.events = []) :
    Commands (ks.map fun k => busWrite (.msg k) (f k)) s { s with X := s.X.store f ks } := by
  induction ks generalizing s with
  | nil => exact .nil s
  | cons k ks ih =>
    have rest := ih (s := { s with X := s.X.set k (f k) }) hr hb he
    exact .cons (exec_msg_write hr hb k (f k)) (completes_of_notBusy he hb) rest

theorem commands_init (hr : s.RST = false) (hb : s.PHASE ≠ .busy) :
    Commands [busWrite .ctrl 0x1] s.registers State.reset := by
  have write : exec (decodeBus (busWrite .ctrl 0x1)) s.registers = .next (resetRegs s.registers) := exec_init_write hr hb
  have reset : resetRegs s.registers = State.reset := by simp [resetRegs, State.registers, State.reset, hr]
  exact commands_single (reset ▸ write) (completes_of_notBusy rfl (by decide))

theorem afterBlocks_reset (m : List Byte) : AfterBlocks m 0 State.reset := ⟨rfl, rfl, rfl, rfl, ⟨rfl, rfl, rfl⟩, rfl⟩

/-- BLOCK, run to completion. -/
theorem commands_block {q : Quad} {x : MsgBuf} (hr : s.RST = false) (hp : s.PHASE = .ready)
    (hl : s.LEN.toNat + 64 < 2 ^ 61) (hq : s.quad = q) (hx : s.X = x) :
    Commands [busWrite .ctrl 0x2] s (({ s with
      LEN := s.LEN + BitVec.ofNat 64 64, FIN := false, NB := 0, NEED2 := false, UOP := 0x31, PHASE := .busy } : State).afterBlock
        (compress q x) 0x3F .ready) := by
  subst hq hx
  exact commands_single (exec_block_write hr hp hl) ⟨50, engineTurns_toEnd hr rfl rfl (by simp), by simp⟩

/-- One full block of HASH(m). -/
theorem commands_blockWrites (hm : m.length < 2 ^ 61) {b : Nat} (hb : b < m.length / 64) (h : AfterBlocks m b s) :
    ∃ t, Commands (blockWrites m b) s t ∧ AfterBlocks m (b + 1) t := by
  obtain ⟨rst, ready, len, quad, ⟨cmd, busy, tooLarge⟩, noEvents⟩ := h
  have counted : s.LEN.toNat = 64 * b := by rw [len, BitVec.toNat_ofNat, Nat.mod_eq_of_lt (by omega)]
  have stored := commands_msgWrites (fun k => le32 m (64 * b + 4 * k.val)) (List.finRange 16) rst (by simp [ready]) noEvents
  rw [store_finRange_eq_blockOf, ← blockOf_padMessage_full m hb] at stored
  have block := commands_block (s := { s with X := blockOf (padMessage m) b }) rst ready
    (by simp only [counted]; omega) quad rfl
  refine ⟨_, stored.append block, by rw [afterBlock_RST]; exact rst, by simp, ?_, ?_,
    by simp [NoFlags, cmd, busy, tooLarge], by simp⟩
  · rw [afterBlock_LEN]
    simp only [len, Nat.mul_succ, BitVec.ofNat_add]
  · rw [afterBlock_quad, chainingValue_succ]

/-- All full blocks of HASH(m). -/
theorem commands_fullBlocks (hm : m.length < 2 ^ 61) {b : Nat} (hb : b ≤ m.length / 64) :
    ∃ t, Commands ((List.range b).flatMap (blockWrites m)) State.reset t ∧ AfterBlocks m b t := by
  induction b with
  | zero => exact ⟨_, .nil _, afterBlocks_reset m⟩
  | succ b ih =>
    obtain ⟨t, before, ht⟩ := ih (Nat.le_of_succ_le hb)
    obtain ⟨u, block, hu⟩ := commands_blockWrites hm hb ht
    refine ⟨u, ?_, hu⟩
    rw [List.range_succ, List.flatMap_append, List.flatMap_singleton]
    exact before.append block

end Writes

/-! ### FINAL, run to completion (R137, R156) -/

/-- A FINAL that ends the message is in progress: `b` blocks of P(m) are compressed and the micro-op `uop` is next. -/
structure InFinal (m : List Byte) (b : Nat) (uop : BitVec 6) (s : State) : Prop where
  rst : s.RST = false
  busy : s.PHASE = .busy
  next : s.UOP = uop
  fin : s.FIN = true
  len : s.LEN = BitVec.ofNat 64 m.length
  quad : s.quad = chainingValue m b
  flags : NoFlags s

section Final

variable {m : List Byte} {b : Nat} {uop : BitVec 6} {s : State}

/-- The engine's turn runs the micro-op that is next. -/
theorem InFinal.turn (h : InFinal m b uop s) : engineTurns 1 s = exec (decodeUop uop) { s with events := [] } := by
  rw [engineTurns_one, nextMicroOp_of_busy h.rst h.busy, h.next]

/-- PAD1 and PAD2 go on to SAVE. -/
theorem InFinal.withBlock (h : InFinal m b uop s) (x : MsgBuf) (need2 : Bool) :
    InFinal m b 0x31 { s with events := [], X := x, NEED2 := need2, UOP := 0x31 } :=
  ⟨h.rst, h.busy, rfl, h.fin, h.len, h.quad, h.flags⟩

/-- A block that is not the last goes on to PAD2. -/
theorem InFinal.afterBlock (h : InFinal m b uop s) {q : Quad} (hq : q = chainingValue m (b + 1)) :
    InFinal m (b + 1) 0x33 (s.afterBlock q 0x33 .busy) :=
  ⟨h.rst, rfl, rfl, h.fin, h.len, hq, h.flags⟩

/-- The last one goes on to DONE. -/
theorem InFinal.digest_afterBlock (h : InFinal m b uop s) {q : Quad} (hq : q = md4State m) :
    HoldsDigest m (s.afterBlock q 0x3F .done) :=
  ⟨rfl, hq, h.len, h.flags⟩

/-- The last block, once it is in X. -/
theorem InFinal.lastBlock (h : InFinal m b 0x31 s) (need2 : s.NEED2 = false) (block : s.X = blockOf (padMessage m) b)
    (count : blockCount m.length = b + 1) : ∃ t, Completes s t ∧ HoldsDigest m t := by
  have done : (if s.FIN then Phase.done else .ready) = .done := if_pos h.fin
  have turns := engineTurns_toEnd h.rst h.busy h.next (by simp [need2])
  rw [done] at turns
  have digest : compress s.quad s.X = md4State m := by
    rw [h.quad, block, md4State_eq_chainingValue, count, chainingValue_succ]
  exact ⟨_, ⟨50, turns, by simp⟩, h.digest_afterBlock digest⟩

/-- PAD2 and the block it builds lead to DONE. -/
theorem InFinal.pad2 (h : InFinal m (m.length / 64 + 1) 0x33 s) (long : 56 ≤ m.length % 64) :
    ∃ t, Completes s t ∧ HoldsDigest m t := by
  have decoded : decodeUop 0x33 = .pad2 := by decide
  have turn := h.turn
  rw [decoded, exec_pad2] at turn
  have block : MsgBuf.lengthOnly s.LEN = blockOf (padMessage m) (m.length / 64 + 1) := by
    rw [h.len, lengthOnly_eq_blockOf long]
  obtain ⟨t, rest, digest⟩ := (h.withBlock _ false).lastBlock rfl block (blockCount_of_long long)
  exact ⟨t, rest.before turn, digest⟩

/-- PAD1 and the one or two blocks after it lead to DONE. -/
theorem InFinal.pad1 (h : InFinal m (m.length / 64) 0x32 s) (nb : s.NB.toNat = m.length % 64) (tail : HoldsTail m s.X) :
    ∃ t, Completes s t ∧ HoldsDigest m t := by
  have decoded : decodeUop 0x32 = .pad1 := by decide
  have turn := h.turn
  rw [decoded] at turn
  by_cases short : m.length % 64 ≤ 55
  · rw [exec_pad1_short (s := { s with events := [] }) (nb ▸ short)] at turn
    have block : (s.X.padTail s.NB).putLength s.LEN = blockOf (padMessage m) (m.length / 64) := by
      rw [h.len, putLength_padTail_eq_blockOf tail nb short]
    obtain ⟨t, rest, digest⟩ := (h.withBlock _ false).lastBlock rfl block (blockCount_of_short short)
    exact ⟨t, rest.before turn, digest⟩
  · have long : 56 ≤ m.length % 64 := by omega
    rw [exec_pad1_long (s := { s with events := [] }) (nb ▸ long), padTail_eq_blockOf tail nb long] at turn
    have saved := h.withBlock (blockOf (padMessage m) (m.length / 64)) true
    have turns := engineTurns_toPad2 saved.rst saved.busy saved.next saved.fin rfl
    rw [saved.quad, ← chainingValue_succ] at turns
    obtain ⟨t, rest, digest⟩ := (saved.afterBlock rfl).pad2 long
    exact ⟨t, (rest.before turns).before turn, digest⟩

end Final

/-! ### HASH(m) (R200, R201) -/

section Hash

variable {m : List Byte} {s : State}

/-- The tail of HASH(m), from the end of its full blocks. -/
theorem commands_tailWrites (junk : List Byte) (hm : m.length < 2 ^ 61) (h : AfterBlocks m (m.length / 64) s) :
    ∃ t, Commands (tailWrites m junk) s t ∧ HoldsDigest m t := by
  obtain ⟨rst, ready, len, quad, flags, noEvents⟩ := h
  have small : m.length % 64 < 64 := Nat.mod_lt _ (by decide)
  have counted : s.LEN.toNat = 64 * (m.length / 64) := by rw [len, BitVec.toNat_ofNat, Nat.mod_eq_of_lt (by omega)]
  have whole : s.LEN + BitVec.ofNat 64 (m.length % 64) = BitVec.ofNat 64 m.length := by
    rw [len, ← BitVec.ofNat_add, Nat.div_add_mod]
  have nb : (BitVec.ofNat 6 (m.length % 64)).toNat = m.length % 64 := by rw [BitVec.toNat_ofNat, Nat.mod_eq_of_lt small]
  have stored := commands_msgWrites (fun k => le32 (m ++ junk) (m.length - m.length % 64 + 4 * k.val))
    ((List.finRange 16).filter fun k => k.val < (m.length % 64 + 3) / 4) rst (by simp [ready]) noEvents
  have tail := holdsTail_store m junk s.X
  generalize s.X.store _ _ = x at stored tail
  have final := exec_final_write (s := { s with X := x }) small rst ready (by simp only [counted]; omega)
  have accepted : InFinal m (m.length / 64) 0x32 { s with
      X := x, LEN := s.LEN + BitVec.ofNat 64 (m.length % 64), FIN := true, NB := BitVec.ofNat 6 (m.length % 64), NEED2 := false
      UOP := 0x32, PHASE := .busy } := ⟨rst, rfl, rfl, rfl, whole, quad, flags⟩
  obtain ⟨t, rest, digest⟩ := accepted.pad1 nb tail
  exact ⟨t, stored.append (commands_single final rest), digest⟩

/-- Every write of HASH(m), each run to completion, from any state at rest. -/
theorem commands_hashWrites (junk : List Byte) (hm : m.length < 2 ^ 61) (hr : s.RST = false) (hb : s.PHASE ≠ .busy) :
    ∃ t, Commands (hashWrites m junk) s.registers t ∧ HoldsDigest m t := by
  obtain ⟨u, blocks, between⟩ := commands_fullBlocks hm (Nat.le_refl _)
  obtain ⟨t, tail, digest⟩ := commands_tailWrites junk hm between
  exact ⟨t, ((commands_init hr hb).append blocks).append tail, digest⟩

end Hash

/-- Settles O44: the run ends with the registers that the writes of HASH(m), each run to completion, lead to. -/
theorem everyInterleavingComputesTheDigest : Obligations.EveryInterleavingComputesTheDigest := by
  intro m junk s t evs hm hr hb port writes waits run ht
  obtain ⟨u, commands, digest⟩ := commands_hashWrites junk hm hr hb
  have same : t.registers = u :=
    runEvents_registers port waits run ht (completes_of_notBusy rfl hb) (writes ▸ commands)
  obtain ⟨done, quad, len, flags⟩ : HoldsDigest m t.registers := same ▸ digest
  have done : t.PHASE = .done := done
  have quad : t.quad = md4State m := quad
  exact ⟨done, noErrors_of_noFlags (s := t) flags, by rw [digestBytes_done done, quad, md4], len⟩

end Sys2Proof.Machine
end

section
/-! PROOFS. The statement of spec/30_encoding.md on WAIT (R79, R260): a count of the engine's turns that every turn lowers and
no access of a BUSY engine raises, and the fair schedules on which it runs out. -/

namespace Sys2Proof.Machine

/-! ### What is left of a command (R155, R156) -/

/-- The most turns a command takes from counter `u` on, when `need2` says that a second block is still to come. -/
def turnsFrom (u : BitVec 6) (need2 : Bool) : Nat :=
  if u = 0x32 then 102
  else if u = 0x33 then 51
  else (if u = 0x31 then 50 else 49 - u.toNat) + if need2 then 51 else 0

/-- The most turns the command in progress still takes. -/
def turnsLeft (s : State) : Nat := turnsFrom s.UOP s.NEED2

theorem turnsFrom_step : ∀ (u : BitVec 6) (need2 : Bool), u.toNat < 0x30 → turnsFrom (u + 1) need2 < turnsFrom u need2 := by
  decide

theorem turnsFrom_save : ∀ need2 : Bool, turnsFrom 0x00 need2 < turnsFrom 0x31 need2 := by
  decide

theorem turnsFrom_ffwd : ∀ need2 : Bool, need2 = true → turnsFrom 0x33 need2 < turnsFrom 0x30 need2 := by
  decide

theorem turnsFrom_pad1 : ∀ need2 need2' : Bool, turnsFrom 0x31 need2' < turnsFrom 0x32 need2 := by
  decide

theorem turnsFrom_pad2 : ∀ need2 : Bool, turnsFrom 0x31 false < turnsFrom 0x33 need2 := by
  decide

/-- The values of UOP of a BUSY engine: a step of the rounds, FFWD, SAVE, PAD1 or PAD2 (I1, I4). -/
theorem SpecInv.uop_of_busy {s : State} (h : SpecInv s) (hb : s.PHASE = .busy) :
    s.UOP.toNat < 0x30 ∨ s.UOP = 0x30 ∨ s.UOP = 0x31 ∨ s.UOP = 0x32 ∨ s.UOP = 0x33 := by
  have notIdle : s.UOP ≠ 0x3F := h.busyIffMicroOp.mp hb
  have legal := h.uopLegal
  bv_omega

section Progress

variable {s : State}

/-- Each turn of a BUSY engine ends the command or leaves fewer turns. -/
theorem SpecInv.turn_progress (h : SpecInv s) (hr : s.RST = false) (hb : s.PHASE = .busy) :
    ∃ t, exec (nextMicroOp s) s = .next t ∧ (t.PHASE ≠ .busy ∨ turnsLeft t < turnsLeft s) := by
  rw [nextMicroOp_of_busy hr hb, turnsLeft]
  obtain inRounds | hu | hu | hu | hu := h.uop_of_busy hb
  · have selected := decodeUop_step inRounds
    rw [BitVec.ofNat_toNat, BitVec.setWidth_eq] at selected
    rw [selected]
    exact ⟨_, exec_stepInstr _ _ s, .inr (turnsFrom_step s.UOP s.NEED2 inRounds)⟩
  · rw [hu]
    by_cases more : s.FIN = true ∧ s.NEED2 = true
    · exact ⟨_, exec_ffwd_more more.1 more.2, .inr (turnsFrom_ffwd s.NEED2 more.2)⟩
    · exact ⟨_, exec_ffwd_end more, .inl (by cases s.FIN <;> nofun)⟩
  · rw [hu]
    exact ⟨_, rfl, .inr (turnsFrom_save s.NEED2)⟩
  · rw [hu]
    rcases Nat.lt_or_ge s.NB.toNat 56 with short | long
    · exact ⟨_, exec_pad1_short (Nat.le_of_lt_succ short), .inr (turnsFrom_pad1 s.NEED2 false)⟩
    · exact ⟨_, exec_pad1_long long, .inr (turnsFrom_pad1 s.NEED2 true)⟩
  · rw [hu]
    exact ⟨_, exec_pad2 s, .inr (turnsFrom_pad2 s.NEED2)⟩

theorem writeEffect_of_busy (hb : s.PHASE = .busy) (v : Word) (r : Reg) :
    ∃ e, writeEffect v s r = { s with ERR_BUSY := e } := by
  cases r with
  | ctrl | msg j => exact ⟨true, if_pos hb⟩
  | _ => exact ⟨s.ERR_BUSY, rfl⟩

/-- A host access while BUSY changes nothing but ERR_BUSY and what the host got back (R180, R196, R222). -/
theorem exec_decodeBus_of_busy (hb : s.PHASE = .busy) (w : BitVec 39) :
    ∃ e rs, exec (decodeBus w) s = .next { s with ERR_BUSY := e, reads := rs } := by
  rw [exec_decodeBus]
  by_cases hw : busWe w = true
  · rw [if_pos hw]
    by_cases hr : s.RST = true
    · exact ⟨s.ERR_BUSY, s.reads, by rw [if_pos hr]⟩
    · obtain ⟨e, effect⟩ := writeEffect_of_busy hb (busData w) (decodeOff (busOff w))
      exact ⟨e, s.reads, by rw [if_neg hr, effect]⟩
  · exact ⟨s.ERR_BUSY, _, by rw [if_neg hw]⟩

theorem applyRst_cases (level : Bool) (s : State) : applyRst level s = s ∨ (applyRst level s).PHASE = .ready := by
  unfold applyRst
  split
  · exact .inr rfl
  · exact .inl rfl

/-- A held RST holds PHASE at READY. -/
theorem EngineInv.released_of_busy (h : EngineInv s) (hb : s.PHASE = .busy) : s.RST = false := by
  rw [Bool.eq_false_iff]
  intro hr
  rw [h.heldInReset hr] at hb
  cases hb

/-- One element of an interleaving, while the engine is BUSY: the command ends, or no turn is added, and the engine's own
turn takes one away. -/
theorem EngineInv.element_progress (h : EngineInv s) (hb : s.PHASE = .busy) {e : Event} {t : State}
    (run : step { s with events := [e] } = .next t) :
    t.PHASE ≠ .busy ∨ turnsLeft t ≤ turnsLeft s ∧ (e = .engine → turnsLeft t < turnsLeft s) := by
  have access (w : BitVec 39) (run : exec (decodeBus w) { s with events := [] } = .next t) : turnsLeft t = turnsLeft s := by
    obtain ⟨e, rs, same⟩ := exec_decodeBus_of_busy (s := { s with events := [] }) hb w
    cases same.symm.trans run
    rfl
  obtain ⟨he, -⟩ | ⟨rest, he, run⟩ | ⟨w, rest, he, run⟩ | ⟨we, off, data, rest, he, run⟩ | ⟨level, rest, he, rfl⟩ :=
    step_cases run <;> cases he
  · obtain ⟨u, turn, progress⟩ := (h.withEvents []).turn_progress (h.released_of_busy hb) hb
    cases turn.symm.trans run
    exact progress.imp_right fun less => ⟨Nat.le_of_lt less, fun _ => less⟩
  · exact .inr ⟨Nat.le_of_eq (access w run), nofun⟩
  · exact .inr ⟨Nat.le_of_eq (access _ run), nofun⟩
  · obtain same | ready := applyRst_cases level { s with events := [] }
    · rw [same]
      exact .inr ⟨Nat.le_refl _, nofun⟩
    · simp [ready]

end Progress

/-! ### Runs of a schedule -/

section Schedules

variable {σ : Schedule} {s t u : State} {j k : Nat}

/-- One more element of a schedule is one more step, which empties the interleaving. -/
theorem runSchedule_succ_of_step (run : runSchedule σ k s = .next t) (next : step { t with events := [σ k] } = .next u) :
    runSchedule σ (k + 1) s = .next { u with events := [] } := by
  rw [runSchedule_succ, run, andThen_next, runEvents_cons, next, andThen_next, runEvents_nil]

variable (h : EngineInv s) (served : ∀ k, (σ k).served = true)
include h

theorem EngineInv.afterSchedule (run : runSchedule σ k s = .next t) : EngineInv t :=
  (h.withEvents _).afterRun run

include served

/-- Where every element is served, a run goes on by one more step. -/
theorem EngineInv.schedule_step (run : runSchedule σ k s = .next t) :
    ∃ u, step { t with events := [σ k] } = .next u ∧ runSchedule σ (k + 1) s = .next { u with events := [] } := by
  obtain ⟨u, next⟩ | ⟨e, rest, r, he, notServed, -⟩ :=
    ((h.afterSchedule run).withEvents [σ k]).toSpecInv.step_answers
  · exact ⟨u, next, runSchedule_succ_of_step run next⟩
  · cases he
    simp [served k] at notServed

/-- From one point of a run to a later one the engine is not BUSY in between, or no turn was added to its command. -/
theorem EngineInv.turnsLeft_le_later (run : runSchedule σ k s = .next t) (later : k ≤ j) :
    (∃ i u, k ≤ i ∧ runSchedule σ i s = .next u ∧ u.PHASE ≠ .busy) ∨
      ∃ u, runSchedule σ j s = .next u ∧ turnsLeft u ≤ turnsLeft t := by
  induction j, later using Nat.le_induction with
  | base => exact .inr ⟨t, run, Nat.le_refl _⟩
  | succ j later ih =>
    obtain ended | ⟨u, run, le⟩ := ih
    · exact .inl ended
    obtain ended | hb := ne_or_eq u.PHASE .busy
    · exact .inl ⟨j, u, later, run, ended⟩
    obtain ⟨v, next, run'⟩ := h.schedule_step served run
    obtain ended | ⟨le', -⟩ := (h.afterSchedule run).element_progress hb next
    · exact .inl ⟨j + 1, _, Nat.le_succ_of_le later, run', ended⟩
    · exact .inr ⟨_, run', Nat.le_trans le' le⟩

/-- R260: on a fair schedule the engine is again and again not BUSY: fairness brings turn after turn, and each takes one
of the finitely many that are left. -/
theorem Fair.notBusy_later (fair : Fair σ s) (run : runSchedule σ k s = .next t) :
    ∃ j u, k ≤ j ∧ runSchedule σ j s = .next u ∧ u.PHASE ≠ .busy := by
  induction hn : turnsLeft t using Nat.strong_induction_on generalizing k t with
  | _ n ih =>
    subst hn
    obtain ended | hb := ne_or_eq t.PHASE .busy
    · exact ⟨k, t, Nat.le_refl k, run, ended⟩
    obtain ⟨j, u, later, runJ, ended | turn⟩ := fair k t run hb
    · exact ⟨j, u, later, runJ, ended⟩
    obtain ended | ⟨u', runJ', le⟩ := h.turnsLeft_le_later served run later
    · exact ended
    cases runJ'.symm.trans runJ
    obtain ended | hbu := ne_or_eq u.PHASE .busy
    · exact ⟨j, u, later, runJ, ended⟩
    obtain ⟨v, next, run'⟩ := h.schedule_step served runJ
    obtain ended | ⟨-, less⟩ := (h.afterSchedule runJ).element_progress hbu next
    · exact ⟨j + 1, _, Nat.le_succ_of_le later, run', ended⟩
    · obtain ⟨i, w, le', found⟩ := ih _ (Nat.lt_of_lt_of_le (less turn) le) run' rfl
      exact ⟨i, w, by omega, found⟩

end Schedules

/-! ### A host in WAIT (R79) -/

section Wait

variable {σ : Schedule} {s t u : State} {j k : Nat}

theorem Waits.served (waits : Waits σ) (k : Nat) : (σ k).served = true := by
  obtain he | ⟨level, he⟩ | he := waits.onlyPolls k <;> rw [he] <;> rfl

/-- The read of STATUS that a poll is. -/
theorem step_poll (t : State) : step { t with events := [.bus (busRead .status)] } =
    .next { t with events := [], reads := (if t.RST then 0 else statusWord t) :: t.reads } := by
  rw [step_of_bus rfl, decodeBus_busRead, exec_decodeRead]
  rfl

/-- A host that only polls starts no command. -/
theorem Waits.notBusy_step (waits : Waits σ) (hb : t.PHASE ≠ .busy) (run : step { t with events := [σ k] } = .next u) :
    u.PHASE ≠ .busy := by
  obtain he | ⟨level, he⟩ | he := waits.onlyPolls k <;> rw [he] at run
  · have turn : step { t with events := [.engine] } = exec (nextMicroOp t) { t with events := [] } := rfl
    rw [turn, nextMicroOp_of_notBusy hb, exec_idle] at run
    cases run
    exact hb
  · rw [step_of_rst rfl] at run
    cases run
    obtain same | ready := applyRst_cases level { t with events := [] }
    · rw [same]
      exact hb
    · simp [ready]
  · rw [step_poll] at run
    cases run
    exact hb

theorem Waits.notBusy_stays (waits : Waits σ) (h : EngineInv s) (run : runSchedule σ k s = .next t) (hb : t.PHASE ≠ .busy)
    (later : k ≤ j) : ∃ u, runSchedule σ j s = .next u ∧ u.PHASE ≠ .busy := by
  induction j, later using Nat.le_induction with
  | base => exact ⟨t, run, hb⟩
  | succ j _ ih =>
    obtain ⟨u, run, hb⟩ := ih
    obtain ⟨v, next, run'⟩ := h.schedule_step waits.served run
    have stays : v.PHASE ≠ .busy := waits.notBusy_step hb next
    exact ⟨_, run', stays⟩

/-- What a poll returns of an engine that is not BUSY has bit 0 clear (R34, R251). -/
theorem pollView_bit0 (hb : t.PHASE ≠ .busy) : (if t.RST then 0 else statusWord t).getLsbD 0 = false := by
  obtain ⟨busy, -⟩ := statusWord_flags t
  split
  · rfl
  · exact busy.trans (beq_eq_false_iff_ne.mpr hb)

end Wait

/-- Settles O60: the engine comes to a state that is not BUSY, polls and turns leave it so, and the next poll sees it. -/
theorem everyWaitTerminates : Obligations.EveryWaitTerminates := by
  intro σ s h waits fair
  obtain ⟨k, t, -, run, hb⟩ := fair.notBusy_later h waits.served (runSchedule_zero σ s)
  obtain ⟨j, later, poll⟩ := waits.pollsAgain k
  obtain ⟨u, run, hb⟩ := waits.notBusy_stays h run hb later
  have next := step_poll u
  rw [← poll] at next
  exact ⟨j, _, _, poll, runSchedule_succ_of_step run next, rfl, pollView_bit0 hb, hb⟩

end Sys2Proof.Machine
end

section
/-! PROOFS. The statements of spec/30_encoding.md on the two formats: decode and encode undo each other (R70 to R76), each word
matches its one row of the opcode table (R78), bytes that hold no code, and the reserved micro-ops (R77, R231). -/

namespace Sys2Proof

/-! ### Decode of encode (R70 to R76) -/

/-- The command is selected by CMD alone (R73). -/
theorem decodeCtrl_of_cmd {v : Word} {cmd : BitVec 4} (h : ctrlCmd v = cmd) : decodeCtrl v =
    if cmd.getLsbD 3 then .ctrlRsvd1xxx v
    else if cmd.getLsbD 2 then .ctrlRsvd01xx v
    else if cmd = 0x0 then .nop v
    else if cmd = 0x1 then .init v
    else if cmd = 0x2 then .block v
    else .final v := by
  rw [← h, decodeCtrl]

theorem decodeCtrl_of_cmd01xx {v : Word} (h : (ctrlCmd v).extractLsb' 2 2 = 0b01) : decodeCtrl v = .ctrlRsvd01xx v := by
  have bits : ∀ cmd : BitVec 4, cmd.extractLsb' 2 2 = 0b01 → cmd.getLsbD 3 = false ∧ cmd.getLsbD 2 = true := by decide
  obtain ⟨bit3, bit2⟩ := bits _ h
  rw [decodeCtrl, bit3, bit2]
  rfl

theorem decodeCtrl_of_cmd1xxx {v : Word} (h : (ctrlCmd v).extractLsb' 3 1 = 0b1) : decodeCtrl v = .ctrlRsvd1xxx v := by
  have bit : ∀ cmd : BitVec 4, cmd.extractLsb' 3 1 = 0b1 → cmd.getLsbD 3 = true := by decide
  rw [decodeCtrl, bit _ h]
  rfl

/-- A micro-op is what its counter value decodes to (R76). -/
theorem decode_encode_microOp :
    (∀ k, decode (encode (.stepR1 k)) = .stepR1 k) ∧ (∀ k, decode (encode (.stepR2 k)) = .stepR2 k) ∧
    (∀ k, decode (encode (.stepR3 k)) = .stepR3 k) ∧ (∀ k, decode (encode (.uopRsvd34 k)) = .uopRsvd34 k) ∧
    (∀ k, decode (encode (.uopRsvd38 k)) = .uopRsvd38 k) ∧ ∀ k, decode (encode (.uopRsvd3C k)) = .uopRsvd3C k := by
  decide

theorem decode_encode {i : Instr} (h : i.wf = true) : decode (encode i) = i := by
  obtain ⟨r1, r2, r3, rsvd34, rsvd38, rsvd3C⟩ := decode_encode_microOp
  cases i with
  | nop v | init v | block v | final v => exact (decodeBus_busWrite .ctrl v).trans (decodeCtrl_of_cmd (eq_of_beq h))
  | ctrlRsvd01xx v => exact (decodeBus_busWrite .ctrl v).trans (decodeCtrl_of_cmd01xx (eq_of_beq h))
  | ctrlRsvd1xxx v => exact (decodeBus_busWrite .ctrl v).trans (decodeCtrl_of_cmd1xxx (eq_of_beq h))
  | rdCtrl | rdStatus | rdLenLo | rdLenHi => exact decodeBus_busRead _
  | rdDigest k | rdRsvd20 k | rdMsg k | rdRsvd80 k => exact decodeBus_busRead _
  | wrStatus v | wrLenLo v | wrLenHi v => exact decodeBus_busWrite _ v
  | wrDigest k v | wrRsvd20 k v | wrMsg k v | wrRsvd80 k v => exact decodeBus_busWrite _ v
  | pad1 | save | ffwd | pad2 | idle | uopRsvd3E => rfl
  | stepR1 k => exact r1 k
  | stepR2 k => exact r2 k
  | stepR3 k => exact r3 k
  | uopRsvd34 k => exact rsvd34 k
  | uopRsvd38 k => exact rsvd38 k
  | uopRsvd3C k => exact rsvd3C k

/-- On bytes the decoder does what it does on the code they hold. -/
theorem decodeBytes_encodeBytes (i : Instr) : decodeBytes (encodeBytes i) = .ok (decode (encode i)) := by
  rw [decodeBytes, encodeBytes, codeOfBytes_bytes]

/-- Settles O2, instruction by instruction from the fields of a transaction word and the values of the counter. -/
theorem decodeInvertsEncode : Obligations.DecodeInvertsEncode := fun i h =>
  ⟨decode_encode h, by rw [decodeBytes_encodeBytes, decode_encode h]⟩

/-! ### Encode of decode (R70 to R78) -/

@[simp] theorem encode_decodeRead (r : Reg) : encode (decodeRead r) = .bus (busRead r) := by
  cases r <;> rfl

@[simp] theorem encode_decodeWrite (v : Word) (r : Reg) : encode (decodeWrite v r) = .bus (busWrite r v) := by
  cases r with
  | ctrl =>
    rw [decodeWrite]
    obtain ⟨-, h⟩ | ⟨-, h⟩ | ⟨-, h⟩ | ⟨-, h⟩ | ⟨-, h⟩ | ⟨-, h⟩ := decodeCtrl_cases v <;> rw [h] <;> rfl
  | _ => rfl

theorem decodeCtrl_wf (v : Word) : (decodeCtrl v).wf = true := by
  obtain ⟨h, e⟩ | ⟨h, e⟩ | ⟨h, e⟩ | ⟨h, e⟩ | ⟨h, e⟩ | ⟨h, e⟩ := decodeCtrl_cases v <;> rw [e] <;> exact beq_iff_eq.mpr h

theorem decodeBus_wf (t : BitVec 39) : (decodeBus t).wf = true := by
  unfold decodeBus
  split
  · cases decodeOff (busOff t) with
    | ctrl => exact decodeCtrl_wf (busData t)
    | _ => rfl
  · cases decodeOff (busOff t) <;> rfl

theorem decodeUop_wf : ∀ u : BitVec 6, (decodeUop u).wf = true := by
  decide

theorem decodeBus_of_write {t : BitVec 39} (h : busWe t = true) : decodeBus t = decodeWrite (busData t) (decodeOff (busOff t)) :=
  if_pos h

theorem decodeBus_of_read {t : BitVec 39} (h : busWe t = false) : decodeBus t = decodeRead (decodeOff (busOff t)) :=
  if_neg (by simp [h])

theorem encode_decodeBus_of_write {t : BitVec 39} (h : busWe t = true) : encode (decodeBus t) = .bus t := by
  rw [decodeBus_of_write h, encode_decodeWrite, busWrite, off_decodeOff, ← h, busWord_eta]

/-- A read encodes with no data (R79). -/
theorem encode_decodeBus_of_read {t : BitVec 39} (h : busWe t = false) :
    encode (decodeBus t) = .bus (busWord false (busOff t) 0) := by
  rw [decodeBus_of_read h, encode_decodeRead, busRead, off_decodeOff]

/-- Settles O3: a transaction word is its three fields, and the offset and CMD decodes lose none of them. -/
theorem encodeInvertsDecode : Obligations.EncodeInvertsDecode := by
  refine ⟨fun t => ⟨decodeBus_wf t, fun known => ?_⟩, fun u => ⟨decodeUop_wf u, encode_decodeUop u⟩⟩
  cases h : busWe t with
  | true => exact encode_decodeBus_of_write h
  | false =>
    have noData : busData t = 0 := known.resolve_left (by simp [h])
    rw [encode_decodeBus_of_read h, ← noData, ← h, busWord_eta]

/-! ### The rows of the opcode table (R78) -/

/-- Some bit that both rows look at differs. -/
def Row.conflicts {n : Nat} (r r' : Row n) : Bool := r.bits &&& r'.mask != r'.bits &&& r.mask

/-- No word matches both of two rows that conflict. -/
theorem Row.not_matches_both {n : Nat} {r r' : Row n} (h : r.conflicts r' = true) {w : BitVec n} (hr : r.matches w = true)
    (hr' : r'.matches w = true) : False := by
  rw [Row.matches, beq_iff_eq] at hr hr'
  have agree : r.bits &&& r'.mask = r'.bits &&& r.mask := by
    rw [← hr, ← hr', BitVec.and_assoc, BitVec.and_assoc, BitVec.and_comm r.mask]
  simp [Row.conflicts, agree] at h

/-- In a table whose rows conflict pairwise, the row that a word matches is the only one. -/
theorem filter_matches_eq_singleton {n : Nat} {rows : List (Row n)} (conflict : rows.Pairwise (·.conflicts ·)) {r : Row n}
    (hr : r ∈ rows) {w : BitVec n} (hw : r.matches w = true) : rows.filter (·.matches w) = [r] := by
  induction conflict with
  | nil => cases hr
  | cons head _ ih =>
    obtain rfl | hr := List.mem_cons.mp hr
    · rw [List.filter_cons, if_pos hw, List.filter_eq_nil_iff.mpr fun r' hr' => Row.not_matches_both (head r' hr') hw]
    · rw [List.filter_cons, if_neg fun h => Row.not_matches_both (head r hr) h hw, ih hr]

theorem busRows_conflict : busRows.Pairwise (·.conflicts ·) := by
  decide

theorem uopRows_conflict : uopRows.Pairwise (·.conflicts ·) := by
  decide

/-- A transaction word matches a row exactly when each of its three fields does. -/
theorem matches_iff_fields (row : Row 39) (t : BitVec 39) : row.matches t = true ↔
    (busWe t && busWe row.mask) = busWe row.bits ∧ busOff t &&& busOff row.mask = busOff row.bits ∧
      busData t &&& busData row.mask = busData row.bits := by
  rw [Row.matches, beq_iff_eq, ← busWord_inj, ← busWord_and, busWord_eta, busWord_eta, busWord_eta]

/-- The rows of reads have no mask on the data bits (log entry 9). -/
theorem busRows_readsIgnoreData : ∀ row ∈ busRows, busWe row.bits = true ∨ busData row.mask = 0 := by
  decide

/-- A read matches the row that the same read without data matches. -/
theorem matches_of_read {row : Row 39} (hrow : row ∈ busRows) {t : BitVec 39} (h : busWe t = false)
    (noData : row.matches (busWord false (busOff t) 0) = true) : row.matches t = true := by
  rw [matches_iff_fields, busWe_busWord, busOff_busWord, busData_busWord] at noData
  obtain ⟨we, off, data⟩ := noData
  refine (matches_iff_fields row t).mpr ⟨by rw [h, we], off, ?_⟩
  obtain write | noMask := busRows_readsIgnoreData row hrow
  · simp [write] at we
  · simp [← data, noMask]

end Sys2Proof

namespace Sys2Proof.Laws.TableRow

/-- The word of every well-formed instruction matches its row. -/
theorem ofInstr : ∀ i : Instr, Statement i
  | .nop v => nop v
  | .init v => init v
  | .block v => block v
  | .final v => final v
  | .ctrlRsvd01xx v => ctrlRsvd01xx v
  | .ctrlRsvd1xxx v => ctrlRsvd1xxx v
  | .rdCtrl => rdCtrl
  | .rdStatus => rdStatus
  | .wrStatus v => wrStatus v
  | .rdLenLo => rdLenLo
  | .rdLenHi => rdLenHi
  | .wrLenLo v => wrLenLo v
  | .wrLenHi v => wrLenHi v
  | .rdDigest n => rdDigest n
  | .wrDigest n v => wrDigest n v
  | .rdRsvd20 k => rdRsvd20 k
  | .wrRsvd20 k v => wrRsvd20 k v
  | .rdMsg j => rdMsg j
  | .wrMsg j v => wrMsg j v
  | .rdRsvd80 k => rdRsvd80 k
  | .wrRsvd80 k v => wrRsvd80 k v
  | .pad1 => pad1
  | .save => save
  | .stepR1 k => stepR1 k
  | .stepR2 k => stepR2 k
  | .stepR3 k => stepR3 k
  | .ffwd => ffwd
  | .pad2 => pad2
  | .idle => idle
  | .uopRsvd34 k => uopRsvd34 k
  | .uopRsvd38 k => uopRsvd38 k
  | .uopRsvd3C k => uopRsvd3C k
  | .uopRsvd3E => uopRsvd3E

end Sys2Proof.Laws.TableRow

namespace Sys2Proof

theorem exists_busRow (t : BitVec 39) : ∃ row ∈ busRows, row.mnemonic = (decodeBus t).mnemonic ∧ row.matches t = true := by
  have encoded := Laws.TableRow.ofInstr (decodeBus t) (decodeBus_wf t)
  cases h : busWe t with
  | true =>
    rw [encode_decodeBus_of_write h] at encoded
    exact encoded
  | false =>
    rw [encode_decodeBus_of_read h] at encoded
    obtain ⟨row, hrow, name, noData⟩ := encoded
    exact ⟨row, hrow, name, matches_of_read hrow h noData⟩

theorem exists_uopRow (u : BitVec 6) : ∃ row ∈ uopRows, row.mnemonic = (decodeUop u).mnemonic ∧ row.matches u = true := by
  have encoded := Laws.TableRow.ofInstr (decodeUop u) (decodeUop_wf u)
  rw [encode_decodeUop] at encoded
  exact encoded

theorem mnemonic_decodeCtrl {v v' : Word} (h : ctrlCmd v = ctrlCmd v') : (decodeCtrl v).mnemonic = (decodeCtrl v').mnemonic := by
  rw [decodeCtrl_of_cmd h, decodeCtrl]
  simp only [apply_ite Instr.mnemonic]
  rfl

theorem mnemonic_decodeWrite {v v' : Word} (h : ctrlCmd v = ctrlCmd v') (r : Reg) :
    (decodeWrite v r).mnemonic = (decodeWrite v' r).mnemonic := by
  cases r with
  | ctrl => exact mnemonic_decodeCtrl h
  | _ => rfl

/-- The row depends on WE, OFF and CMD only. -/
theorem mnemonic_decodeBus {t t' : BitVec 39} (we : busWe t = busWe t') (off : busOff t = busOff t')
    (cmd : ctrlCmd (busData t) = ctrlCmd (busData t')) : (decodeBus t).mnemonic = (decodeBus t').mnemonic := by
  cases h : busWe t' with
  | true => rw [decodeBus_of_write (we.trans h), decodeBus_of_write h, off, mnemonic_decodeWrite cmd]
  | false => rw [decodeBus_of_read (we.trans h), decodeBus_of_read h, off]

/-! ### The reserved micro-ops (R77, R231) -/

theorem decodeUop_reserved : ∀ u : BitVec 6, 0x34 ≤ u.toNat → u.toNat ≤ 0x3E →
    (∃ k, decodeUop u = .uopRsvd34 k) ∨ (∃ k, decodeUop u = .uopRsvd38 k) ∨ (∃ k, decodeUop u = .uopRsvd3C k) ∨
      decodeUop u = .uopRsvd3E := by
  decide

end Sys2Proof

namespace Sys2Proof.Machine

theorem exec_decodeUop_reserved {u : BitVec 6} (lo : 0x34 ≤ u.toNat) (hi : u.toNat ≤ 0x3E) (s : State) :
    exec (decodeUop u) s = .fault .engineStuck := by
  obtain ⟨k, h⟩ | ⟨k, h⟩ | ⟨k, h⟩ | h := decodeUop_reserved u lo hi <;> rw [h] <;> rfl

/-- Settles O4: the word matches the row of its instruction, and any two rows conflict, so that it matches no other. -/
theorem everyWordMatchesExactlyItsRow : Obligations.EveryWordMatchesExactlyItsRow := by
  refine ⟨fun t => ?_, fun u => ?_, fun t t' => mnemonic_decodeBus, fun u lo hi => exec_decodeUop_reserved lo hi⟩
  · obtain ⟨row, hrow, name, hit⟩ := exists_busRow t
    rw [filter_matches_eq_singleton busRows_conflict hrow hit, List.map_singleton, name]
  · obtain ⟨row, hrow, name, hit⟩ := exists_uopRow u
    rw [filter_matches_eq_singleton uopRows_conflict hrow hit, List.map_singleton, name]

/-- Settles O31: the turn runs the reserved micro-op, which has no next state, while an access of the BUSY engine leaves UOP. -/
theorem reservedMicroOpsAreStuck : Obligations.ReservedMicroOpsAreStuck := by
  refine ⟨fun s => ⟨fun _ => rfl, fun _ => rfl, fun _ => rfl, rfl⟩, fun s rest lo hi hb hr => ⟨fun he => ?_, fun t he => ?_⟩⟩
  · rw [step_of_engine he, nextMicroOp_of_busy hr hb, exec_decodeUop_reserved lo hi]
  · obtain ⟨e, rs, access⟩ := exec_decodeBus_of_busy (s := { s with events := rest }) hb t
    exact ⟨step_of_bus he, _, (step_of_bus he).trans access, rfl⟩

end Sys2Proof.Machine

namespace Sys2Proof

/-! ### Words written out, and bytes that hold no code -/

/-- Settles O1, by decoding each of the words. -/
theorem writtenOutWordsDecode : Obligations.WrittenOutWordsDecode := by
  unfold Obligations.WrittenOutWordsDecode
  decide

theorem codeOfBytes_bit39 (b0 b1 b2 b3 : Byte) {b4 : Byte} (h : 128 ≤ b4.toNat) :
    codeOfBytes [b0, b1, b2, b3, b4] = .error .busTooWide := by
  have bit7 : b4.getLsbD 7 = true := by rw [← BitVec.msb_eq_getLsbD_last, BitVec.msb_eq_decide]; simpa using h
  rw [codeOfBytes, if_pos bit7]

theorem codeOfBytes_bit6 {b : Byte} (h : 64 ≤ b.toNat) : codeOfBytes [b] = .error .uopTooWide := by
  have wide : b.extractLsb' 6 2 ≠ 0 := by
    intro zero
    have value := congrArg BitVec.toNat zero
    simp [BitVec.extractLsb'_toNat, Nat.shiftRight_eq_div_pow] at value
    omega
  rw [codeOfBytes, if_neg wide]

theorem codeOfBytes_badLength {bs : List Byte} (not1 : bs.length ≠ 1) (not5 : bs.length ≠ 5) :
    codeOfBytes bs = .error .badLength := by
  unfold codeOfBytes
  split
  · exact absurd rfl not1
  · exact absurd rfl not5
  · rfl

/-- Settles O5, by the three lengths. -/
theorem bytesThatHoldNoCodeAreRejected : Obligations.BytesThatHoldNoCodeAreRejected := by
  refine ⟨fun b0 b1 b2 b3 b4 h => ?_, fun b h => ?_, fun bs not1 not5 => ?_⟩
  · rw [decodeBytes, codeOfBytes_bit39 b0 b1 b2 b3 h]
  · rw [decodeBytes, codeOfBytes_bit6 h]
  · rw [decodeBytes, codeOfBytes_badLength not1 not5]

end Sys2Proof
end


section
/-! PROOFS. The statements of spec/40_round_functions.md: the round functions as truth tables (R100 to R103), the rotating
register file against the role table (R112, R158), and the word orders, rotation amounts and round constants (R106 to R110, R113). -/

namespace Sys2Proof

/-! ### The round functions bit by bit (R100 to R103) -/

theorem roundF_getLsbD (x y z : Word) {k : Nat} (hk : k < 32) :
    (roundF x y z).getLsbD k = (x.getLsbD k && y.getLsbD k || !x.getLsbD k && z.getLsbD k) := by
  simp [roundF, hk]

theorem roundG_getLsbD (x y z : Word) (k : Nat) : (roundG x y z).getLsbD k =
    (x.getLsbD k && y.getLsbD k || x.getLsbD k && z.getLsbD k || y.getLsbD k && z.getLsbD k) := by
  simp only [roundG, BitVec.getLsbD_or, BitVec.getLsbD_and]

theorem roundH_getLsbD (x y z : Word) (k : Nat) :
    (roundH x y z).getLsbD k = (x.getLsbD k ^^ y.getLsbD k ^^ z.getLsbD k) := by
  simp only [roundH, BitVec.getLsbD_xor]

/-- R103's index of the table entry that three input bits select. -/
def tableIndex (a b c : Bool) : Nat := 4 * a.toNat + 2 * b.toNat + c.toNat

theorem choose_eq_tableBit : ∀ a b c : Bool, (a && b || !a && c) = (0xCA#8).getLsbD (tableIndex a b c) := by decide

theorem majority_eq_tableBit : ∀ a b c : Bool, (a && b || a && c || b && c) = (0xE8#8).getLsbD (tableIndex a b c) := by decide

theorem parity_eq_tableBit : ∀ a b c : Bool, (a ^^ b ^^ c) = (0x96#8).getLsbD (tableIndex a b c) := by decide

/-- Settles O35: bit k is choice, majority or parity of the three input bits, and each of these is its table. -/
theorem roundFunctionsAreTheirTables : Obligations.RoundFunctionsAreTheirTables := by
  rintro x y z k _ hk rfl
  exact ⟨(roundF_getLsbD x y z hk).trans (choose_eq_tableBit _ _ _),
    (roundG_getLsbD x y z k).trans (majority_eq_tableBit _ _ _), (roundH_getLsbD x y z k).trans (parity_eq_tableBit _ _ _)⟩

/-! ### The rotating register file (R112, R158) -/

/-- The words of `q` in the order of the role table at position `p`: what a rotating register file holds there (R158). -/
def Quad.inRoles (p : Fin 4) (q : Quad) : Quad :=
  ⟨q.get (roleOf p).target, q.get (roleOf p).x, q.get (roleOf p).y, q.get (roleOf p).z⟩

theorem Quad.inRoles_zero (q : Quad) : q.inRoles 0 = q := rfl

/-- Putting the new word in the target register is, in the order of roles, the renaming `(A, B, C, D) <- (D, new, B, C)`. -/
theorem Quad.inRoles_put_target (q : Quad) (p : Fin 4) (new : Word) : (q.put (roleOf p).target new).inRoles (p + 1) =
    ⟨(q.inRoles p).d, new, (q.inRoles p).b, (q.inRoles p).c⟩ := by
  match p with
  | 0 | 1 | 2 | 3 => rfl

/-- One step commutes with reading the words in the order of roles. -/
theorem Quad.rotatingStep_inRoles (r : Round) (x : MsgBuf) (q : Quad) {i : Fin 16} {p : Fin 4} (next : stepPos i + 1 = p) :
    (q.inRoles (stepPos i)).rotatingStep r i x = (q.roundStep r i x).inRoles p := by
  subst next
  exact (q.inRoles_put_target (stepPos i) _).symm

theorem stepPos_add_one {i : Fin 16} {p : Fin 4} (h : (i.val + 1) % 4 = p.val) : stepPos i + 1 = p :=
  Fin.ext (by rw [Fin.val_add]; simpa [stepPos] using h)

/-- Settles O38: the rotating file holds the words in the order of roles, and after four steps from p = 0 it is p = 0 again. -/
theorem rotatingFormAgreesEveryFourthStep : Obligations.RotatingFormAgreesEveryFourthStep := by
  intro r x q i0 i1 i2 i3 h0 h1 h2 h3
  have start : stepPos i0 = 0 := Fin.ext h0
  have next0 : stepPos i0 + 1 = stepPos i1 := stepPos_add_one (by simp [stepPos, h1])
  have next1 : stepPos i1 + 1 = stepPos i2 := stepPos_add_one (by simp [stepPos, h1, h2])
  have next2 : stepPos i2 + 1 = stepPos i3 := stepPos_add_one (by simp [stepPos, h2, h3])
  have next3 : stepPos i3 + 1 = 0 := stepPos_add_one (by rw [Fin.val_zero]; omega)
  calc (((q.rotatingStep r i0 x).rotatingStep r i1 x).rotatingStep r i2 x).rotatingStep r i3 x
      = ((((q.inRoles (stepPos i0)).rotatingStep r i0 x).rotatingStep r i1 x).rotatingStep r i2 x).rotatingStep r i3 x := by
        rw [start, Quad.inRoles_zero]
    _ = ((((q.roundStep r i0 x).roundStep r i1 x).roundStep r i2 x).roundStep r i3 x).inRoles 0 := by
        rw [Quad.rotatingStep_inRoles r x _ next0, Quad.rotatingStep_inRoles r x _ next1,
          Quad.rotatingStep_inRoles r x _ next2, Quad.rotatingStep_inRoles r x _ next3]
    _ = _ := Quad.inRoles_zero _

/-! ### Word orders, rotation amounts, round constants (R106 to R110, R113) -/

/-- R107: the order of round 2 exchanges the two base-4 digits of the step. -/
theorem wordIndex_r2_val : ∀ i : Fin 16, (wordIndex .r2 i).val = 4 * (i.val % 4) + i.val / 4 := by decide

/-- R108: the order of round 3 reverses the four bits of the step. -/
theorem wordIndex_r3_val : ∀ i : Fin 16,
    (wordIndex .r3 i).val = 8 * (i.val % 2) + 4 * (i.val / 2 % 2) + 2 * (i.val / 4 % 2) + i.val / 8 := by decide

/-- Each word order undoes itself: the identity, an exchange of digits, a reversal of bits. -/
theorem wordIndex_involutive (r : Round) : Function.Involutive (wordIndex r) := by
  cases r with
  | r1 => exact fun _ => rfl
  | r2 | r3 => unfold Function.Involutive; decide

/-- Settles O37: the closed forms at the sixteen steps, the permutations from the orders being involutions, the rest by evaluation. -/
theorem schedulerTables : Obligations.SchedulerTables :=
  ⟨fun _ => rfl, wordIndex_r2_val, wordIndex_r3_val, fun r _ _ h => (wordIndex_involutive r).injective h,
    rfl, rfl, rfl, rfl, rfl, rfl⟩

end Sys2Proof
end

section
/-! PROOFS. The statements of spec/41_padding.md: what PAD1 and PAD2 leave (R132, R133), the layout of P(m) (R130, R131), and how
long an accepted FINAL keeps the engine BUSY (R156, R159). -/

namespace Sys2Proof.Machine

/-! ### How long the engine stays BUSY (R156) -/

/-- The engine alone, started in `s`, is BUSY before each of its first `n` turns. -/
def BusyFor (n : Nat) (s : State) : Prop := ∀ k, k < n → ∃ t, engineTurns k s = .next t ∧ t.PHASE = .busy

section BusyTurns

variable {s p : State}

theorem busyFor_one (hb : s.PHASE = .busy) : BusyFor 1 s := fun k hk => by
  obtain rfl : k = 0 := by omega
  exact ⟨_, engineTurns_zero s, hb⟩

/-- BUSY for the first `j` turns and for `k` more. -/
theorem BusyFor.add {j k : Nat} (first : BusyFor j s) (run : engineTurns j s = .next p) (rest : BusyFor k p) :
    BusyFor (j + k) s := fun i hi => by
  by_cases h : i < j
  · exact first i h
  · obtain ⟨t, later, busy⟩ := rest (i - j) (by omega)
    have split : i = j + (i - j) := by omega
    exact ⟨t, by rw [split, engineTurns_add, run, andThen_next, later], busy⟩

/-- SAVE, the 48 steps and FFWD: fifty turns, BUSY before each. -/
theorem busyFor_block (hr : s.RST = false) (hb : s.PHASE = .busy) (hu : s.UOP = 0x31) : BusyFor 50 s := fun k hk => by
  cases k with
  | zero => exact ⟨_, engineTurns_zero s, hb⟩
  | succ k => exact ⟨_, engineTurns_inRounds hr hb hu (by omega), hb⟩

/-- A padding micro-op and the block it builds: 51 turns, BUSY before each. -/
theorem busyFor_paddedBlock (hb : s.PHASE = .busy) (pad : engineTurns 1 s = .next p) (hr : p.RST = false)
    (hp : p.PHASE = .busy) (hu : p.UOP = 0x31) : BusyFor 51 s :=
  (busyFor_one hb).add pad (busyFor_block hr hp hu)

theorem engineTurns_paddedBlock (pad : engineTurns 1 s = .next p) : engineTurns 51 s = engineTurns 50 p := by
  rw [engineTurns_add 1 50, pad, andThen_next]

end BusyTurns

/-! ### An accepted FINAL (R156, R159) -/

section Final

/-- The state after PAD1 or PAD2 has put the block `x` into X; `evs` is the interleaving left. -/
def State.padded (s : State) (x : MsgBuf) (need2 : Bool) (evs : List Event) : State :=
  { s with X := x, NEED2 := need2, UOP := 0x31, events := evs }

variable {s : State}

/-- A BUSY engine's turn runs the micro-op that UOP encodes. -/
theorem engineTurns_one_of_busy {u : BitVec 6} {i : Instr} (hr : s.RST = false) (hb : s.PHASE = .busy) (hu : s.UOP = u)
    (hi : decodeUop u = i) : engineTurns 1 s = exec i { s with events := [] } := by
  subst hu
  rw [engineTurns_one, nextMicroOp_of_busy hr hb, hi]

/-- PAD1 with room for the length: the block it builds, as its instruction and as the engine's turn leave it. -/
theorem pad1_short_block (hr : s.RST = false) (hb : s.PHASE = .busy) (hu : s.UOP = 0x32) (h : s.NB.toNat ≤ 55) :
    ∃ x, exec .pad1 s = .next (s.padded x false s.events) ∧ engineTurns 1 s = .next (s.padded x false []) :=
  ⟨_, exec_pad1_short h,
    (engineTurns_one_of_busy hr hb hu (by decide)).trans (exec_pad1_short (s := { s with events := [] }) h)⟩

/-- PAD1 without room for the length, likewise. -/
theorem pad1_long_block (hr : s.RST = false) (hb : s.PHASE = .busy) (hu : s.UOP = 0x32) (h : 56 ≤ s.NB.toNat) :
    ∃ x, exec .pad1 s = .next (s.padded x true s.events) ∧ engineTurns 1 s = .next (s.padded x true []) :=
  ⟨_, exec_pad1_long h,
    (engineTurns_one_of_busy hr hb hu (by decide)).trans (exec_pad1_long (s := { s with events := [] }) h)⟩

/-- PAD2's turn. -/
theorem engineTurns_pad2 (hr : s.RST = false) (hb : s.PHASE = .busy) (hu : s.UOP = 0x33) :
    engineTurns 1 s = .next (s.padded (MsgBuf.lengthOnly s.LEN) false []) :=
  (engineTurns_one_of_busy hr hb hu (by decide)).trans (exec_pad2 _)

/-- The last padded block of a FINAL ends in DONE. The chaining value is a name `q` here and below: comparing the registers of two
states then never evaluates COMPRESS. -/
theorem engineTurns_lastPaddedBlock {x : MsgBuf} (pad : engineTurns 1 s = .next (s.padded x false []))
    (hr : s.RST = false) (hb : s.PHASE = .busy) (hf : s.FIN = true) :
    ∃ q, q = compress s.quad x ∧ engineTurns 51 s = .next ((s.padded x false []).afterBlock q 0x3F .done) := by
  have turns := engineTurns_toEnd (s := s.padded x false []) hr hb rfl (by simp [State.padded])
  have done : (if (s.padded x false []).FIN then Phase.done else .ready) = .done := if_pos hf
  rw [done] at turns
  exact ⟨_, rfl, (engineTurns_paddedBlock pad).trans turns⟩

/-- A first padded block without the length goes on to PAD2. -/
theorem engineTurns_firstPaddedBlock {x : MsgBuf} (pad : engineTurns 1 s = .next (s.padded x true []))
    (hr : s.RST = false) (hb : s.PHASE = .busy) (hf : s.FIN = true) :
    ∃ q, q = compress s.quad x ∧ engineTurns 51 s = .next ((s.padded x true []).afterBlock q 0x33 .busy) :=
  ⟨_, rfl, (engineTurns_paddedBlock pad).trans (engineTurns_toPad2 (s := s.padded x true []) hr hb rfl hf rfl)⟩

end Final

/-- Settles O40: PAD1 and its block take 51 turns; without room for the length they lead to PAD2, and it and its block take 51
more. -/
theorem finalCompletesInFixedMicroOps : Obligations.FinalCompletesInFixedMicroOps := by
  intro s hr hb hu hf
  by_cases short : s.NB.toNat ≤ 55
  · obtain ⟨x, pad1, turn⟩ := pad1_short_block hr hb hu short
    obtain ⟨q, hq, turns⟩ := engineTurns_lastPaddedBlock turn hr hb hf
    have busy := busyFor_paddedBlock hb turn hr hb rfl
    rw [if_pos short]
    exact ⟨busy, _, _, pad1, turns, rfl, rfl, hf, rfl, rfl, rfl, rfl, rfl, rfl, rfl, fun _ => ⟨hq, rfl, rfl⟩,
      fun long => absurd long (by omega)⟩
  · obtain ⟨x, pad1, turn⟩ := pad1_long_block hr hb hu (by omega)
    obtain ⟨q, hq, first⟩ := engineTurns_firstPaddedBlock turn hr hb hf
    have turn2 := engineTurns_pad2 (s := (s.padded x true []).afterBlock q 0x33 .busy) hr rfl rfl
    obtain ⟨q2, hq2, second⟩ := engineTurns_lastPaddedBlock turn2 hr rfl hf
    have busy := (busyFor_paddedBlock hb turn hr hb rfl).add first (busyFor_paddedBlock rfl turn2 hr rfl rfl)
    have turns := engineTurns_add 51 51 s
    rw [first, andThen_next, second] at turns
    rw [if_neg short]
    exact ⟨busy, _, _, pad1, turns, rfl, rfl, hf, rfl, rfl, rfl, rfl, rfl, rfl, rfl, fun h => absurd h short,
      fun _ => ⟨_, exec_pad2 _, hq ▸ hq2, hq, rfl⟩⟩

/-! ### PAD1 and PAD2 (R132, R133) -/

/-- Settles O23: the bytes of the padded tail, which the length leaves as they are below byte 56. -/
theorem pad1PadsTheTail : Obligations.Pad1PadsTheTail := by
  refine ⟨by decide, ?_⟩
  rintro s n rfl
  have tail := byte_padTail s.X s.NB
  by_cases short : s.NB.toNat ≤ 55
  · have need2 : decide (56 ≤ s.NB.toNat) = false := decide_eq_false (by omega)
    have below {j : Fin 64} (h : j.val < 56) := (byte_putLength_below (s.X.padTail s.NB) s.LEN h).trans (tail j)
    refine ⟨_, need2 ▸ exec_pad1_short short, fun j h => ?_, fun j h => ?_, fun j h h' => ?_,
      fun _ => ⟨putLength_14 _ _, putLength_15 _ _⟩⟩
    · rw [below (by omega), if_pos h]
    · rw [below (by omega), if_neg (by omega), if_pos h]
    · rw [below (by omega), if_neg (by omega), if_neg (by omega)]
  · have need2 : decide (56 ≤ s.NB.toNat) = true := decide_eq_true (by omega)
    refine ⟨_, need2 ▸ exec_pad1_long (by omega), fun j h => ?_, fun j h => ?_, fun j h _ => ?_, fun h => absurd h short⟩
    · rw [tail, if_pos h]
    · rw [tail, if_neg (by omega), if_pos h]
    · rw [tail, if_neg (by omega), if_neg (by omega)]

/-- The length-only block, word by word. -/
theorem lengthOnly_eq_words (len : BitVec 64) :
    MsgBuf.lengthOnly len = #v[0, 0, 0, 0, 0, 0, 0, 0, 0, 0, 0, 0, 0, 0, bitLenLo len, bitLenHi len] := rfl

/-- Settles O24: the block of PAD2 is zeros and the bit length. -/
theorem pad2BuildsTheLengthBlock : Obligations.Pad2BuildsTheLengthBlock :=
  ⟨by decide, fun s => by rw [exec_pad2, lengthOnly_eq_words]; rfl⟩

/-! ### The layout of P(m) (R130, R131) -/

theorem padZeros_congruent (len : Nat) : (len + 1 + padZeros len) % 64 = 56 := by
  unfold padZeros; omega

theorem padZeros_least {len z : Nat} (h : z < padZeros len) : (len + 1 + z) % 64 ≠ 56 := by
  unfold padZeros at h; omega

theorem length_padMessage (m : List Byte) : (padMessage m).length = 64 * blockCount m.length := by
  have parts : (padMessage m).length = m.length + 1 + padZeros m.length + 8 := by simp [padMessage, le64]; omega
  rw [parts, padZeros, blockCount]
  omega

/-- Byte `k` of a 64-bit number is its digit of weight 2^(8k). -/
theorem extractLsb'_ofNat_byte (n : Nat) {k : Nat} (hk : k < 8) :
    (BitVec.ofNat 64 n).extractLsb' (8 * k) 8 = BitVec.ofNat 8 (n / 2 ^ (8 * k)) := by
  refine BitVec.eq_of_getLsbD_eq fun i hi => ?_
  have inWord : 8 * k + i < 64 := by omega
  rw [BitVec.getLsbD_extractLsb', BitVec.getLsbD_ofNat, BitVec.getLsbD_ofNat, Nat.testBit_div_two_pow, Nat.add_comm i]
  simp [hi, inWord]

/-- Settles O41: the residue is the padding's arithmetic, the bytes are those of the parts of P(m). -/
theorem paddedMessageIsWholeBlocks : Obligations.PaddedMessageIsWholeBlocks := fun m =>
  ⟨padZeros_congruent _, fun _ => padZeros_least, length_padMessage m, fun _ => padMessage_getElem?_message m,
    padMessage_getElem?_mark m, fun _ => padMessage_getElem?_zeros m,
    fun _ hk => by rw [padMessage_getElem?_length m hk, extractLsb'_ofNat_byte _ hk]⟩

end Sys2Proof.Machine
end

section
/-! PROOFS. The statements of spec/42_compression.md: the micro-ops of a block (R150 to R157), how an accepted command completes
whatever the host does and on fair schedules (R156, R260), and the host procedure for one digest (R159, R200). -/

namespace Sys2Proof

/-! ### The steps of the rounds, as words and as micro-ops (R75, R104, R105) -/

/-- The new word of a step is the library's rotation of the plain sum. -/
theorem rotl32_adderTree (r : Round) (p : Fin 4) (t f w : Word) :
    rotl32 (adderTree t f w (roundConst r)) (rotAmount r p) = (t + f + w + roundConst r).rotateLeft (rotAmount r p) := by
  rw [adderTree_eq, rotl32_eq_rotateLeft _ (rotAmount_lt r p)]

/-- Round 1 adds no constant (R110). -/
theorem add_roundConst_r1 (w : Word) : w + roundConst .r1 = w := BitVec.add_zero w

theorem decodeUop_stepR1 : ∀ i : Fin 16, decodeUop (BitVec.ofNat 6 i) = .stepR1 i := by decide

theorem decodeUop_stepR2 : ∀ i : Fin 16, decodeUop (BitVec.ofNat 6 (0x10 + i)) = .stepR2 i := by decide

theorem decodeUop_stepR3 : ∀ i : Fin 16, decodeUop (BitVec.ofNat 6 (0x20 + i)) = .stepR3 i := by decide

end Sys2Proof

namespace Sys2Proof.Machine

/-! ### The micro-ops (R150 to R157) -/

/-- Settles O25: the meaning of SAVE is this assignment. -/
theorem saveCopiesTheState : Obligations.SaveCopiesTheState := ⟨by decide, fun _ => rfl⟩

/-- Settles O30: the meaning of IDLE is the state itself. -/
theorem idleChangesNothing : Obligations.IdleChangesNothing := ⟨by decide, exec_idle⟩

/-- The end of a FINAL's block is DONE (R154). -/
theorem endPhase_of_final {s : State} (hf : s.FIN = true) : (if s.FIN then Phase.done else .ready) = .done := if_pos hf

/-- The end of a BLOCK is READY (R154). -/
theorem endPhase_of_block {s : State} (hf : s.FIN = false) : (if s.FIN then Phase.done else .ready) = .ready :=
  if_neg (by simp [hf])

/-- Settles O29, by the two ways of FFWD and, where it ends the block, by FIN. -/
theorem ffwdEndsTheBlock : Obligations.FfwdEndsTheBlock := by
  refine ⟨by decide, fun s => ⟨fun hf hn => exec_ffwd_more hf hn, fun hf hn => ?_, fun hf => ?_⟩⟩
  · rw [exec_ffwd_end (by simp [hn]), endPhase_of_final hf]
    rfl
  · rw [exec_ffwd_end (by simp [hf]), endPhase_of_block hf]
    rfl

/-- A step by its position i mod 4: the role table's row of each, and nothing else but UOP changes (R112). -/
theorem exec_step_by_position (r : Round) (i : Fin 16) (s : State) :
    (i.val % 4 = 0 → exec (stepInstr r i) s = .next { s with
      A := (s.A + roundFn r s.B s.C s.D + s.X[wordIndex r i] + roundConst r).rotateLeft (rotAmount r 0), UOP := s.UOP + 1 }) ∧
    (i.val % 4 = 1 → exec (stepInstr r i) s = .next { s with
      D := (s.D + roundFn r s.A s.B s.C + s.X[wordIndex r i] + roundConst r).rotateLeft (rotAmount r 1), UOP := s.UOP + 1 }) ∧
    (i.val % 4 = 2 → exec (stepInstr r i) s = .next { s with
      C := (s.C + roundFn r s.D s.A s.B + s.X[wordIndex r i] + roundConst r).rotateLeft (rotAmount r 2), UOP := s.UOP + 1 }) ∧
    (i.val % 4 = 3 → exec (stepInstr r i) s = .next { s with
      B := (s.B + roundFn r s.C s.D s.A + s.X[wordIndex r i] + roundConst r).rotateLeft (rotAmount r 3), UOP := s.UOP + 1 }) := by
  simp only [exec_stepInstr, roundStep, Quad.roundStep, ← rotl32_adderTree]
  have pos (p : Fin 4) (h : i.val % 4 = p) : stepPos i = p := Fin.ext h
  refine ⟨fun h => ?_, fun h => ?_, fun h => ?_, fun h => ?_⟩
  · rw [pos 0 h]
    rfl
  · rw [pos 1 h]
    rfl
  · rw [pos 2 h]
    rfl
  · rw [pos 3 h]
    rfl

/-- Settles O26: round 1 takes the words in their own order and adds no constant. -/
theorem stepOfRoundOne : Obligations.StepOfRoundOne := fun i => by
  refine ⟨decodeUop_stepR1 i, fun s => ?_⟩
  have step := exec_step_by_position .r1 i s
  simp only [add_roundConst_r1] at step
  exact step

/-- Settles O27: the word of the step is the one of R107's closed form. -/
theorem stepOfRoundTwo : Obligations.StepOfRoundTwo := fun i j hj => by
  obtain rfl : wordIndex .r2 i = j := Fin.ext ((wordIndex_r2_val i).trans hj.symm)
  exact ⟨decodeUop_stepR2 i, exec_step_by_position .r2 i⟩

/-- Settles O28: the word of the step is the one of R108's closed form. -/
theorem stepOfRoundThree : Obligations.StepOfRoundThree := fun i j hj => by
  obtain rfl : wordIndex .r3 i = j := Fin.ext ((wordIndex_r3_val i).trans hj.symm)
  exact ⟨decodeUop_stepR3 i, exec_step_by_position .r3 i⟩

/-! ### The counter (R155) -/

/-- Below FFWD the counter selects a step of a round. -/
theorem exec_decodeUop_of_step {u : BitVec 6} (hu : u.toNat < 0x30) (s : State) :
    ∃ r i, exec (decodeUop u) s = .next (roundStep r i s) := by
  have selected := decodeUop_step hu
  rw [BitVec.ofNat_toNat, BitVec.setWidth_eq] at selected
  exact ⟨_, _, by rw [selected, exec_stepInstr]⟩

theorem roundStep_UOP (r : Round) (i : Fin 16) (s : State) : (roundStep r i s).UOP = s.UOP + 1 := rfl

/-- Settles O32, by the micro-op that UOP encodes. -/
theorem nextUopFunction : Obligations.NextUopFunction := by
  intro s t rest hr hb he run
  rw [step_of_engine he, nextMicroOp_of_busy hr hb] at run
  have runs {u : BitVec 6} {i : Instr} (hu : s.UOP = u) (hi : decodeUop u = i) : exec i { s with events := rest } = .next t := by
    rw [← hi, ← hu, run]
  refine ⟨fun hu => ?_, fun hu => ?_, fun hu => ?_, fun hu => ?_, fun hu => ?_, fun hu => ?_⟩
  · obtain ⟨r, i, step⟩ := exec_decodeUop_of_step hu { s with events := rest }
    cases step.symm.trans run
    exact roundStep_UOP r i _
  · have ffwd := runs hu (i := .ffwd) (by decide)
    by_cases more : s.FIN = true ∧ s.NEED2 = true
    · cases (exec_ffwd_more (s := { s with events := rest }) more.1 more.2).symm.trans ffwd
      exact (if_pos more).symm
    · cases (exec_ffwd_end (s := { s with events := rest }) more).symm.trans ffwd
      exact (if_neg more).symm
  · cases runs hu (i := .save) (by decide)
    rfl
  · have pad1 := runs hu (i := .pad1) (by decide)
    rcases Nat.lt_or_ge s.NB.toNat 56 with short | long
    · cases (exec_pad1_short (s := { s with events := rest }) (Nat.le_of_lt_succ short)).symm.trans pad1
      rfl
    · cases (exec_pad1_long (s := { s with events := rest }) long).symm.trans pad1
      rfl
  · cases runs hu (i := .pad2) (by decide)
    rfl
  · cases runs hu (i := .idle) (by decide)
    rfl

/-! ### A host access before a micro-op (R222) -/

/-- What a host access of a BUSY engine can change. -/
def State.withHost (s : State) (errBusy : Bool) (words : List Word) : State := { s with ERR_BUSY := errBusy, reads := words }

/-- No micro-op reads or writes it. -/
theorem exec_withHost_of_microOp {i : Instr} (hi : i.isMicroOp = true) (s : State) (e : Bool) (rs : List Word) :
    exec i (s.withHost e rs) = andThen (exec i s) fun t => .next (t.withHost e rs) := by
  cases i with
  | pad1 =>
    rcases Nat.lt_or_ge s.NB.toNat 56 with h | h
    · rw [exec_pad1_short (s := s.withHost e rs) (Nat.le_of_lt_succ h), exec_pad1_short (Nat.le_of_lt_succ h)]
      rfl
    · rw [exec_pad1_long (s := s.withHost e rs) h, exec_pad1_long h]
      rfl
  | ffwd =>
    by_cases h : s.FIN = true ∧ s.NEED2 = true
    · rw [exec_ffwd_more (s := s.withHost e rs) h.1 h.2, exec_ffwd_more h.1 h.2]
      rfl
    · rw [exec_ffwd_end (s := s.withHost e rs) h, exec_ffwd_end h]
      rfl
  | save | pad2 | idle | uopRsvd3E => rfl
  | stepR1 k | stepR2 k | stepR3 k | uopRsvd34 k | uopRsvd38 k | uopRsvd3C k => rfl
  | _ => cases hi

/-- Settles O52: the access changes nothing that the micro-op reads. -/
theorem hostAccessLeavesTheNextMicroOp : Obligations.HostAccessLeavesTheNextMicroOp := by
  intro w s s1 s2 _ hb access turn
  obtain ⟨e, rs, same⟩ := exec_decodeBus_of_busy hb w
  cases same.symm.trans access
  have selected : nextMicroOp (s.withHost e rs) = nextMicroOp s := rfl
  have after := exec_withHost_of_microOp (nextMicroOp_isMicroOp s) s e rs
  rw [turn, andThen_next] at after
  exact ⟨selected, after⟩

/-! ### An accepted BLOCK (R156, R159) -/

/-- Fifty turns from SAVE, without FIN, end in READY. The chaining value is a name `q`, as in `engineTurns_lastPaddedBlock`. -/
theorem engineTurns_block {s : State} (hr : s.RST = false) (hb : s.PHASE = .busy) (hu : s.UOP = 0x31) (hf : s.FIN = false) :
    ∃ q, q = compress s.quad s.X ∧ engineTurns 50 s = .next (s.afterBlock q 0x3F .ready) := by
  have turns := engineTurns_toEnd hr hb hu (by simp [hf])
  rw [endPhase_of_block hf] at turns
  exact ⟨_, rfl, turns⟩

/-- Settles O39: SAVE, the 48 steps and FFWD are fifty turns, BUSY before each, and without FIN the last one ends in READY. -/
theorem blockCompressesInFiftyMicroOps : Obligations.BlockCompressesInFiftyMicroOps := by
  intro s hr hb hu hf
  obtain ⟨q, hq, turns⟩ := engineTurns_block hr hb hu hf
  exact ⟨busyFor_block hr hb hu, _, turns, hq, rfl⟩

/-! ### Completion by count (R156) -/

theorem turnsFrom_le : ∀ (u : BitVec 6) (need2 : Bool), turnsFrom u need2 ≤ 102 := by
  decide

theorem turnsFrom_pos : ∀ (u : BitVec 6) (need2 : Bool), u.toNat < 0x34 → 0 < turnsFrom u need2 := by
  decide

/-- A BUSY engine has a turn left to take. -/
theorem SpecInv.turnsLeft_pos {s : State} (h : SpecInv s) (hb : s.PHASE = .busy) : 0 < turnsLeft s := by
  refine turnsFrom_pos s.UOP s.NEED2 ?_
  have uop := h.uop_of_busy hb
  bv_omega

/-- Where the next element is served, a step has a next state. -/
theorem EngineInv.step_next {s : State} (h : EngineInv s) {e : Event} (served : e.served = true) :
    ∃ t, step { s with events := [e] } = .next t := by
  obtain ⟨t, next⟩ | ⟨_, _, _, he, notServed, -⟩ := (h.withEvents [e]).toSpecInv.step_answers
  · exact ⟨t, next⟩
  · cases he
    simp [served] at notServed

theorem portOnly_cons {e : Event} {es : List Event} (port : portOnly (e :: es) = true) :
    e.served = true ∧ portOnly es = true := by
  refine ⟨?_, (Bool.and_eq_true_iff.mp port).2⟩
  cases e with
  | bus t | engine => rfl
  | mem we off size data | rst level => cases port

/-- A run's first element. -/
theorem run_cons_of_step {e : Event} {es : List Event} {s t : State} (next : step { s with events := [e] } = .next t) (k : Nat) :
    Sys2Proof.core.run (k + 1) { s with events := e :: es } = Sys2Proof.core.run k { t with events := es } := by
  rw [run_succ, step_cons, next]
  rfl

/-- With as many turns of the engine in the interleaving as its command still takes, the engine comes to rest. -/
theorem EngineInv.notBusy_of_turns {s : State} {evs : List Event} (h : EngineInv s) (hb : s.PHASE = .busy)
    (port : portOnly evs = true) (enough : turnsLeft s ≤ evs.count .engine) :
    ∃ k t, k ≤ evs.length ∧ Sys2Proof.core.run k { s with events := evs } = .next t ∧ t.PHASE ≠ .busy := by
  induction evs generalizing s with
  | nil => exact absurd enough (Nat.not_le.mpr (h.turnsLeft_pos hb))
  | cons e es ih =>
    obtain ⟨served, portRest⟩ := portOnly_cons port
    obtain ⟨t, next⟩ := h.step_next served
    have inv : EngineInv t := (h.withEvents [e]).afterStep next
    obtain ended | ht := ne_or_eq t.PHASE .busy
    · exact ⟨1, { t with events := es }, by simp, run_cons_of_step next 0, ended⟩
    obtain ended | ⟨noMore, less⟩ := h.element_progress hb next
    · exact absurd ht ended
    have enoughRest : turnsLeft t ≤ es.count .engine := by
      by_cases turn : e = .engine
      · have := less turn
        rw [turn, List.count_cons_self] at enough
        omega
      · rw [List.count_cons_of_ne turn] at enough
        omega
    obtain ⟨k, u, short, run, hu⟩ := ih inv ht portRest enoughRest
    exact ⟨k + 1, u, by simpa using short, (run_cons_of_step next k).trans run, hu⟩

/-- Settles O57: no command takes more than 102 turns. -/
theorem everyCommandCompletesWhateverTheHostDoes : Obligations.EveryCommandCompletesWhateverTheHostDoes :=
  fun _ _ h hb port enough => h.notBusy_of_turns hb port (Nat.le_trans (turnsFrom_le _ _) enough)

/-! ### Completion on fair schedules (R260) -/

/-- Where every element is served, a schedule has a run of any length. -/
theorem EngineInv.schedule_runs {σ : Schedule} {s : State} (h : EngineInv s) (served : ∀ k, (σ k).served = true) (k : Nat) :
    ∃ t, runSchedule σ k s = .next t := by
  induction k with
  | zero => exact ⟨_, runSchedule_zero σ s⟩
  | succ k ih =>
    obtain ⟨t, run⟩ := ih
    obtain ⟨u, -, run'⟩ := h.schedule_step served run
    exact ⟨_, run'⟩

/-- Settles O59: from every point of the run, fairness brings the turns that the command still takes. -/
theorem fairSchedulesCompleteEveryCommand : Obligations.FairSchedulesCompleteEveryCommand := by
  intro σ s h served fair k
  obtain ⟨t, run⟩ := h.schedule_runs served k
  exact fair.notBusy_later h served run

/-! ### Runs of a host that waits (R79, R254) -/

/-- The engine alone, started in `s`, is at rest after `n` turns. -/
def AtRestAfter (n : Nat) (s : State) : Prop := ∃ t, engineTurns n s = .next t ∧ t.PHASE ≠ .busy

section Runs

variable {s t u : State}

theorem atRestAfter_block (hr : s.RST = false) (hb : s.PHASE = .busy) (hu : s.UOP = 0x31) (hf : s.FIN = false) :
    AtRestAfter 50 s := by
  obtain ⟨q, -, turns⟩ := engineTurns_block hr hb hu hf
  exact ⟨_, turns, by simp⟩

theorem atRestAfter_final {n : Nat} (hr : s.RST = false) (hb : s.PHASE = .busy) (hu : s.UOP = 0x32) (hf : s.FIN = true)
    (hn : s.NB.toNat = n) : AtRestAfter (finalMicroOps n) s := by
  obtain ⟨-, _, t, -, turns, done, -⟩ := finalCompletesInFixedMicroOps s hr hb hu hf
  rw [hn] at turns
  exact ⟨t, turns, by simp [done]⟩

/-- An access of the host, and what comes after it. -/
theorem runEvents_access {w : BitVec 39} (access : exec (decodeBus w) s = .next t) (es : List Event) :
    runEvents (.bus w :: es) s = runEvents es t := by
  have first : step { s with events := [.bus w] } = exec (decodeBus w) { s with events := [] } := rfl
  rw [runEvents_cons, first, exec_withEvents, access]
  rfl

/-- WAIT leaves what the engine's turns lead to, and what the host got back. -/
theorem runEvents_wait {n : Nat} (run : engineTurns n s = .next t) :
    ∃ words, runEvents (waitEvents n) s = .next { t with events := [], reads := words } := by
  have turns : runEvents (List.replicate n .engine) s = .next t := run
  exact ⟨_, by rw [waitEvents, runEvents_append, turns, andThen_next, runEvents_cons, step_poll, andThen_next, runEvents_nil]⟩

/-- MSG writes at rest store their words. -/
theorem runEvents_msgWrites (f : Fin 16 → Word) (ks : List (Fin 16)) (hr : s.RST = false) (hb : s.PHASE ≠ .busy) :
    runEvents ((ks.map fun k => busWrite (.msg k) (f k)).map .bus) s = .next { s with X := s.X.store f ks, events := [] } := by
  induction ks generalizing s with
  | nil => rfl
  | cons k ks ih =>
    rw [List.map_cons, List.map_cons, runEvents_access (exec_msg_write hr hb k (f k))]
    exact ih (s := { s with X := s.X.set k (f k) }) hr hb

/-- Turns of the engine leave no element behind. -/
theorem engineTurns_noEvents {n : Nat} (run : engineTurns n s = .next t) : { t with events := [] } = t := by
  have more := engineTurns_add n 0 s
  rw [Nat.add_zero, run, andThen_next, engineTurns_zero] at more
  exact (Host.Outcome.next.inj more).symm

theorem engineTurns_RST {n : Nat} (run : engineTurns n s = .next t) : t.RST = s.RST := by
  induction n generalizing t with
  | zero =>
    cases run
    rfl
  | succ n ih =>
    rw [engineTurns_add] at run
    obtain ⟨u, before, turn⟩ := next_of_andThen run
    rw [engineTurns_one] at turn
    obtain ⟨rst, -⟩ := (exec_effect turn).rst_events
    exact rst.trans (ih (t := u) before)

/-- The engine alone comes to rest in one state only. -/
theorem Completes.eq_of_turns {n : Nat} (h : Completes s t) (run : engineTurns n s = .next u) (hu : u.PHASE ≠ .busy) : t = u := by
  obtain ⟨k, run', ht⟩ := h
  have ends := engineTurns_add n k s
  rw [run, andThen_next, engineTurns_notBusy hu, engineTurns_noEvents run, Nat.add_comm, engineTurns_add, run', andThen_next,
    engineTurns_notBusy ht, engineTurns_noEvents run'] at ends
  exact Host.Outcome.next.inj ends

theorem Commands.rst {ws : List (BitVec 39)} (h : Commands ws s t) : t.RST = s.RST := by
  induction h with
  | nil s => rfl
  | cons write rest _ ih =>
    obtain ⟨n, run, -⟩ := rest
    obtain ⟨rst, -⟩ := (exec_effect write).rst_events
    exact ih.trans ((engineTurns_RST run).trans rst)

section CommandAndWait

variable {f : Fin 16 → Word} {ks : List (Fin 16)} (hr : s.RST = false) (hb : s.PHASE ≠ .busy) (he : s.events = [])
include hr hb he

/-- After MSG writes at rest the other commands go on from the stored words. -/
theorem Commands.after_msgWrites {ws : List (BitVec 39)} (h : Commands ((ks.map fun k => busWrite (.msg k) (f k)) ++ ws) s u) :
    Commands ws { s with X := s.X.store f ks } u := by
  induction ks generalizing s with
  | nil => exact h
  | cons k ks ih =>
    cases h with
    | cons write rest more =>
      cases (exec_msg_write hr hb k (f k)).symm.trans write
      obtain rfl := rest.eq_of_notBusy he hb
      exact ih (s := { s with X := s.X.set k (f k) }) hr hb he more

/-- MSG writes, a command and its WAIT: where the command takes at most the turns of the WAIT, the run ends where the writes, each
run to completion, lead to. -/
theorem Commands.run_then_wait {w : BitVec 39} {n : Nat} {p : State}
    (h : Commands ((ks.map fun k => busWrite (.msg k) (f k)) ++ [w]) s u)
    (write : exec (decodeBus w) { s with X := s.X.store f ks } = .next p) (atRest : AtRestAfter n p) :
    ∃ words, runEvents (((ks.map fun k => busWrite (.msg k) (f k)) ++ [w]).map .bus ++ waitEvents n) s =
      .next { u with events := [], reads := words } := by
  obtain ⟨v, run, hv⟩ := atRest
  cases h.after_msgWrites hr hb he with
  | cons write' rest more =>
    cases more
    cases write.symm.trans write'
    obtain rfl := rest.eq_of_turns run hv
    obtain ⟨words, wait⟩ := runEvents_wait run
    have command := runEvents_access write (waitEvents n)
    refine ⟨words, ?_⟩
    rw [List.map_append, List.append_assoc, runEvents_append, runEvents_msgWrites f ks hr hb, andThen_next]
    exact command.trans wait

end CommandAndWait

end Runs

/-! ### The host procedure (R200) -/

section HostProcedure

variable {m : List Byte} {b : Nat} {s : State}

theorem AfterBlocks.withWorld (h : AfterBlocks m b s) (words : List Word) :
    AfterBlocks m b { s with events := [], reads := words } :=
  ⟨h.rst, h.ready, h.len, h.quad, h.flags, rfl⟩

theorem HoldsDigest.withWorld (h : HoldsDigest m s) (words : List Word) : HoldsDigest m { s with events := [], reads := words } :=
  ⟨h.done, h.quad, h.len, h.flags⟩

/-- The counter between two blocks, as a number. -/
theorem AfterBlocks.counted (h : AfterBlocks m b s) (hm : m.length < 2 ^ 61) (hb : b ≤ m.length / 64) : s.LEN.toNat = 64 * b := by
  rw [h.len, BitVec.toNat_ofNat, Nat.mod_eq_of_lt (by omega)]

/-- One full block and its WAIT of fifty turns. -/
theorem runEvents_block (hm : m.length < 2 ^ 61) (hb : b < m.length / 64) (h : AfterBlocks m b s) :
    ∃ t, runEvents ((blockWrites m b).map .bus ++ waitEvents 50) s = .next t ∧ AfterBlocks m (b + 1) t := by
  have counted := h.counted hm (Nat.le_of_lt hb)
  obtain ⟨u, commands, between⟩ := commands_blockWrites hm hb h
  obtain ⟨words, run⟩ := commands.run_then_wait h.rst (by simp [h.ready]) h.noEvents
    (exec_block_write h.rst h.ready (by simp only [counted]; omega)) (atRestAfter_block h.rst rfl rfl rfl)
  exact ⟨_, run, between.withWorld words⟩

/-- All full blocks, from the state after INIT. -/
theorem runEvents_fullBlocks (hm : m.length < 2 ^ 61) (h : AfterBlocks m 0 s) (hb : b ≤ m.length / 64) :
    ∃ t, runEvents ((List.range b).flatMap fun b => (blockWrites m b).map .bus ++ waitEvents 50) s = .next t ∧
      AfterBlocks m b t := by
  induction b with
  | zero => exact ⟨_, rfl, h.withWorld s.reads⟩
  | succ b ih =>
    obtain ⟨t, before, between⟩ := ih (Nat.le_of_succ_le hb)
    obtain ⟨u, block, after⟩ := runEvents_block hm hb between
    refine ⟨u, ?_, after⟩
    rw [List.range_succ, List.flatMap_append, List.flatMap_singleton, runEvents_append, before, andThen_next, block]

/-- The tail, FINAL and its WAIT. -/
theorem runEvents_tail (junk : List Byte) (hm : m.length < 2 ^ 61) (h : AfterBlocks m (m.length / 64) s) :
    ∃ t, runEvents ((tailWrites m junk).map .bus ++ waitEvents (finalMicroOps (m.length % 64))) s = .next t ∧
      HoldsDigest m t ∧ t.RST = false := by
  have small : m.length % 64 < 64 := Nat.mod_lt _ (by decide)
  have counted := h.counted hm (Nat.le_refl _)
  obtain ⟨u, commands, digest⟩ := commands_tailWrites junk hm h
  obtain ⟨words, run⟩ := commands.run_then_wait h.rst (by simp [h.ready]) h.noEvents
    (exec_final_write small h.rst h.ready (by simp only [counted]; omega))
    (atRestAfter_final h.rst rfl rfl rfl (by rw [BitVec.toNat_ofNat, Nat.mod_eq_of_lt small]))
  exact ⟨_, run, digest.withWorld words, commands.rst.trans h.rst⟩

/-- Reads of DIGEST give the host the words of the window. -/
theorem runEvents_digestReads (ns : List (Fin 4)) (hr : s.RST = false) :
    runEvents (ns.map fun n => .bus (busRead (.digest n))) s =
      .next { s with events := [], reads := (ns.map fun n => digestView n s).reverse ++ s.reads } := by
  induction ns generalizing s with
  | nil => rfl
  | cons n ns ih =>
    have read : exec (decodeBus (busRead (.digest n))) s = .next { s with reads := digestView n s :: s.reads } := by
      rw [decodeBus_busRead]
      exact hostRead_released hr _
    have rest := ih (s := { s with reads := digestView n s :: s.reads }) hr
    rw [List.map_cons, runEvents_access read, rest]
    simp [digestView, State.quad]

/-- HASH(m) with every WAIT answered by its first poll, up to the reads of DIGEST, from any state at rest. -/
theorem runEvents_hash (junk : List Byte) (hm : m.length < 2 ^ 61) (hr : s.RST = false) (hb : s.PHASE ≠ .busy) :
    ∃ t, HoldsDigest m t ∧ t.RST = false ∧
      runEvents (hashEvents m junk) s = runEvents ((List.finRange 4).map fun n => .bus (busRead (.digest n))) t := by
  have init : runEvents [.bus (busWrite .ctrl 0x1)] s = .next { resetRegs s with events := [] } :=
    (runEvents_access (exec_init_write hr hb) []).trans (runEvents_nil _)
  have start : AfterBlocks m 0 { resetRegs s with events := [] } := ⟨hr, rfl, rfl, rfl, ⟨rfl, rfl, rfl⟩, rfl⟩
  obtain ⟨t, blocks, between⟩ := runEvents_fullBlocks hm start (Nat.le_refl _)
  obtain ⟨u, tail, digest, rst⟩ := runEvents_tail junk hm between
  refine ⟨u, digest, rst, ?_⟩
  rw [hashEvents, List.append_assoc _ _ (waitEvents _), runEvents_append, runEvents_append, runEvents_append, init, andThen_next,
    blocks, andThen_next, tail, andThen_next]

theorem runOutcome_of_done (hp : s.PHASE = .done) (hn : noErrors s = true) : runOutcome s = .digest (digestBytes s) := by
  simp only [runOutcome, hp, hn, if_true]

end HostProcedure

/-- Settles O43: the procedure comes to a state that holds the digest, and the reads of DIGEST change only what the host got. -/
theorem hostProcedureComputesTheDigest : Obligations.HostProcedureComputesTheDigest := by
  intro m junk s hm hr hb
  obtain ⟨t, ⟨done, quad, -, flags⟩, rst, run⟩ := runEvents_hash junk hm hr hb
  have bytes : digestBytes t = md4 m := by rw [digestBytes_done done, quad, md4]
  rw [runEvents_digestReads _ rst] at run
  have noError : noErrors t = true := noErrors_of_noFlags flags
  refine ⟨_, run, done, noError, bytes, ?_, bytes ▸ runOutcome_of_done done noError⟩
  rw [← bytes]
  simp [digestBytes, List.flatMap_map]

end Sys2Proof.Machine
end

section
/-! PROOFS. The statements of spec/43_host_interface.md: the commands and their refusals (R180 to R186), the other register accesses
(R187 to R198), accesses while BUSY (R222), the ways out of DONE and ERROR (R225), and what the end of a run delivers (R202). -/

namespace Sys2Proof.Machine

/-! ### CTRL writes (R180 to R186) -/

/-- Settles O9: every command word is refused by the one test of PHASE before the command. -/
theorem ctrlWriteWhileBusySetsErrBusy : Obligations.CtrlWriteWhileBusySetsErrBusy := by
  intro v s hr hb
  rw [decodeBus_busWrite, decodeWrite, exec_decodeCtrl, ctrlWrite_busy hr hb]

/-- Settles O10: not BUSY, the command is the identity. -/
theorem nopChangesNothing : Obligations.NopChangesNothing := fun v =>
  ⟨fun cmd => decode_encode (i := .nop v) (beq_iff_eq.mpr cmd),
    fun _ hr => ⟨fun hb => ctrlWrite_notBusy hr hb fun s => s, fun hb => ctrlWrite_busy hr hb fun s => s⟩⟩

/-- A host access that changes PHASE in DONE or ERROR is INIT (R182, R225). -/
theorem Effect.init_of_leaves {i : Instr} {s t : State} (h : Effect i s t) (hi : i.isMicroOp = false)
    (hp : s.PHASE = .done ∨ s.PHASE = .error) (leaves : t.PHASE ≠ s.PHASE) : (∃ w, i = .init w) ∧ t = resetRegs s := by
  cases h with
  | init w _ _ => exact ⟨⟨w, rfl⟩, rfl⟩
  | errTooLarge _ ready _ => simp [ready] at hp
  | block _ _ ready _ | final _ _ ready _ => simp [ready] at hp
  | ffwdEnd _ => cases hi
  | _ => exact absurd rfl leaves

/-- Settles O11: INIT comes to the state of reset, and the last clause is the inversion of a host access in DONE and ERROR. -/
theorem initStartsANewMessage : Obligations.InitStartsANewMessage := by
  refine fun v => ⟨fun cmd => decode_encode (i := .init v) (beq_iff_eq.mpr cmd), fun s hr =>
    ⟨fun hb => ?_, fun hb => ctrlWrite_busy hr hb _,
      fun hp i t hi run leaves => ((exec_effect run).init_of_leaves hi hp leaves).1⟩⟩
  have init : exec (.init v) s = .next (resetRegs s) := ctrlWrite_notBusy hr hb resetRegs
  have released : resetRegs s = { State.reset with events := s.events, reads := s.reads } := by rw [resetRegs, hr]; rfl
  exact ⟨init, init.trans (congrArg _ released)⟩

theorem Phase.notBusy_notReady_of_doneOrError {p : Phase} (h : p = .done ∨ p = .error) : p ≠ .busy ∧ p ≠ .ready := by
  rcases h with rfl | rfl <;> decide

/-- The outcomes of BLOCK and FINAL, in the order of the checks of R223. -/
theorem ctrlWrite_acceptCommand {s : State} (hr : s.RST = false) (n : Nat) (fin : Bool) (nb uop : BitVec 6) :
    (s.PHASE = .ready → s.LEN.toNat + n < 2 ^ 61 → ctrlWrite s (acceptCommand n fin nb uop) = .next
      { s with LEN := s.LEN + BitVec.ofNat 64 n, FIN := fin, NB := nb, NEED2 := false, UOP := uop, PHASE := .busy }) ∧
    (s.PHASE = .ready → 2 ^ 61 ≤ s.LEN.toNat + n → ctrlWrite s (acceptCommand n fin nb uop) = .next
      { s with ERR_TOOLARGE := true, PHASE := .error }) ∧
    (s.PHASE = .done ∨ s.PHASE = .error → ctrlWrite s (acceptCommand n fin nb uop) = .next { s with ERR_CMD := true }) ∧
    (s.PHASE = .busy → ctrlWrite s (acceptCommand n fin nb uop) = .next { s with ERR_BUSY := true }) := by
  refine ⟨fun hp fits => ?_, fun hp tooLarge => ?_, fun hp => ?_, fun hb => ctrlWrite_busy hr hb _⟩
  · rw [ctrlWrite_notBusy hr (by simp [hp]), acceptCommand_accepted hp fits]
  · rw [ctrlWrite_notBusy hr (by simp [hp]), acceptCommand_tooLarge hp tooLarge]
  · obtain ⟨notBusy, notReady⟩ := Phase.notBusy_notReady_of_doneOrError hp
    rw [ctrlWrite_notBusy hr notBusy, acceptCommand_refusedPhase notReady]

/-- Settles O12: BLOCK is the command that counts 64 bytes and starts at SAVE. -/
theorem blockCommandOutcomes : Obligations.BlockCommandOutcomes := fun v =>
  ⟨fun cmd => decode_encode (i := .block v) (beq_iff_eq.mpr cmd), fun _ hr => ctrlWrite_acceptCommand hr 64 false 0 0x31⟩

/-- Settles O13: FINAL is the command that counts and latches NBYTES and starts at PAD1. -/
theorem finalCommandOutcomes : Obligations.FinalCommandOutcomes := by
  refine fun v => ⟨fun cmd => decode_encode (i := .final v) (beq_iff_eq.mpr cmd), fun n s nbytes hr => ?_⟩
  subst nbytes
  rw [← BitVec.ofNat_toNat]
  exact ctrlWrite_acceptCommand hr _ true _ 0x32

/-- The two reserved rows by the leading bits of CMD (R73). -/
theorem reservedCmd_bits : ∀ cmd : BitVec 4, (0x4 ≤ cmd.toNat → cmd.toNat ≤ 0x7 → cmd.extractLsb' 2 2 = 0b01) ∧
    (0x8 ≤ cmd.toNat → cmd.extractLsb' 3 1 = 0b1) := by
  decide

/-- Settles O14: both rows raise ErrCmd. -/
theorem reservedCommandsSetErrCmd : Obligations.ReservedCommandsSetErrCmd := by
  intro v
  obtain ⟨row01xx, row1xxx⟩ := reservedCmd_bits (ctrlCmd v)
  refine ⟨fun lo hi => decode_encode (i := .ctrlRsvd01xx v) (beq_iff_eq.mpr (row01xx lo hi)),
    fun lo => decode_encode (i := .ctrlRsvd1xxx v) (beq_iff_eq.mpr (row1xxx lo)), fun s hr => ⟨fun hb => ?_, fun hb => ?_⟩⟩
  · exact ⟨ctrlWrite_notBusy hr hb (raiseErr .cmd), ctrlWrite_notBusy hr hb (raiseErr .cmd)⟩
  · exact ⟨ctrlWrite_busy hr hb _, ctrlWrite_busy hr hb _⟩

/-- A command's effect depends on CMD and, for FINAL, on NBYTES alone (R186). -/
theorem ctrlEffect_congr {v v' : Word} (cmd : ctrlCmd v = ctrlCmd v')
    (nbytes : ctrlCmd v = 0x3 → ctrlNbytes v = ctrlNbytes v') : ctrlEffect v = ctrlEffect v' := by
  funext s
  simp only [ctrlEffect, cmd]
  split_ifs with high zero one two
  · rfl
  · rfl
  · rfl
  · rfl
  · have last : ∀ c : BitVec 4, ¬(c.getLsbD 3 ∨ c.getLsbD 2) → c ≠ 0 → c ≠ 1 → c ≠ 2 → c = 0x3 := by decide
    rw [nbytes (cmd.trans (last _ high zero one two))]

/-- Settles O15: the effect depends on no other bit of the command word. -/
theorem ignoredCtrlBitsHaveNoEffect : Obligations.IgnoredCtrlBitsHaveNoEffect := by
  intro v v' s cmd nbytes
  simp only [decodeBus_busWrite, decodeWrite, exec_decodeCtrl, ctrlEffect_congr cmd nbytes]

/-! ### The other register accesses (R187 to R198) -/

theorem hostRead_zero (s : State) : hostRead s 0 = .next { s with reads := 0 :: s.reads } := by
  rw [hostRead, ite_self]

/-- Settles O17: these registers show 0, as every register does while RST is asserted, and their writes are ignored. -/
theorem ctrlAndReservedOffsets : Obligations.CtrlAndReservedOffsets := by
  refine ⟨decodeBus_busRead .ctrl, fun off k v hoff => ?_, fun off k v hoff => ?_, fun s => ⟨hostRead_zero s,
    fun _ => hostRead_zero s, fun _ => hostRead_zero s, fun _ _ => hostWrite_nothing s, fun _ _ => hostWrite_nothing s⟩⟩
  · subst hoff
    exact ⟨decodeBus_busRead (.rsvd20 k), decodeBus_busWrite (.rsvd20 k) v⟩
  · subst hoff
    exact ⟨decodeBus_busRead (.rsvd80 k), decodeBus_busWrite (.rsvd80 k) v⟩

/-- The two halves of LEN are LEN (R190, R191). -/
theorem lenHiView_append_lenLoView (s : State) : lenHiView s ++ lenLoView s = s.LEN := by
  unfold lenHiView lenLoView
  refine BitVec.eq_of_getLsbD_eq fun i hi => ?_
  rw [BitVec.getLsbD_append, BitVec.getLsbD_extractLsb', BitVec.getLsbD_extractLsb']
  split
  · next low => simp [low]
  · have high : i - 32 < 32 := by omega
    have offset : 32 + (i - 32) = i := by omega
    simp [high, offset]

theorem lenHiView_lt {s : State} (bounded : s.LEN.toNat < 2 ^ 61) : (lenHiView s).toNat < 2 ^ 29 := by
  rw [lenHiView, BitVec.extractLsb'_toNat, Nat.shiftRight_eq_div_pow]
  omega

/-- Settles O19, from the two halves of LEN. -/
theorem lengthRegisters : Obligations.LengthRegisters :=
  ⟨decodeBus_busRead .lenLo, decodeBus_busRead .lenHi, fun v s => ⟨decodeBus_busWrite .lenLo v, decodeBus_busWrite .lenHi v,
    hostWrite_nothing s, hostWrite_nothing s, fun hr => ⟨lenLoView s, lenHiView s, hostRead_released hr _, hostRead_released hr _,
      lenHiView_append_lenLoView s, lenHiView_lt⟩⟩⟩

theorem digestView_shown {s : State} (hp : s.PHASE = .ready ∨ s.PHASE = .done) (n : Fin 4) :
    digestView n s = [s.A, s.B, s.C, s.D][n] := by
  rw [← quad_get_digestReg]
  rcases hp with hp | hp <;> simp only [digestView, hp]

theorem digestView_gated {s : State} (hp : s.PHASE = .busy ∨ s.PHASE = .error) (n : Fin 4) : digestView n s = 0 := by
  rcases hp with hp | hp <;> simp only [digestView, hp]

/-- Settles O20, by the two sides of the gate. -/
theorem digestRegisters : Obligations.DigestRegisters := by
  refine fun n v => ⟨decodeBus_busRead (.digest n), decodeBus_busWrite (.digest n) v, fun s =>
    ⟨hostWrite_nothing s, fun hr => ?_⟩⟩
  have read : exec (.rdDigest n) s = .next { s with reads := digestView n s :: s.reads } := hostRead_released hr _
  exact ⟨fun hp => digestView_shown hp n ▸ read, fun hp => digestView_gated hp n ▸ read⟩

/-- Settles O21, by whether the engine is BUSY. -/
theorem messageRegisters : Obligations.MessageRegisters := by
  refine fun j v => ⟨decodeBus_busRead (.msg j), decodeBus_busWrite (.msg j) v, fun s hr => ?_⟩
  have read : exec (.rdMsg j) s = .next { s with reads := msgView j s :: s.reads } := hostRead_released hr _
  have write : exec (.wrMsg j v) s = .next (writeEffect v s (.msg j)) := (exec_decodeWrite v (.msg j) s).trans (by simp [hr])
  refine ⟨fun hb => ?_, fun hb => ?_⟩
  · rw [read, write, msgView, writeEffect, if_neg hb, if_neg hb]
    exact ⟨rfl, _, rfl, Vector.getElem_set_self _, fun k hk => Vector.getElem_set_ne _ _ fun h => hk (Fin.ext h.symm)⟩
  · rw [read, write, msgView, writeEffect, if_pos hb, if_pos hb]
    exact ⟨rfl, rfl⟩

/-! ### Host accesses while BUSY (R222) -/

/-- The offsets whose writes are refused while BUSY (R71, R180, R196). -/
theorem decodeOff_ctrl_or_msg : ∀ off : BitVec 6, off = 0b000000 ∨ off.extractLsb' 4 2 = 0b01 →
    decodeOff off = .ctrl ∨ ∃ j, decodeOff off = .msg j := by
  decide

theorem writeEffect_busy {s : State} (hb : s.PHASE = .busy) (v : Word) (off : BitVec 6) : writeEffect v s (decodeOff off) =
    { s with ERR_BUSY := s.ERR_BUSY || (off == 0b000000 || off.extractLsb' 4 2 == 0b01) } := by
  by_cases refused : off = 0b000000 ∨ off.extractLsb' 4 2 = 0b01
  · have errBusy : writeEffect v s (decodeOff off) = { s with ERR_BUSY := true } := by
      obtain reg | ⟨j, reg⟩ := decodeOff_ctrl_or_msg off refused <;> rw [reg] <;> exact if_pos hb
    have flag : (off == 0b000000 || off.extractLsb' 4 2 == 0b01) = true := by simpa using refused
    rw [errBusy, flag, Bool.or_true]
  · obtain ⟨notCtrl, notMsg⟩ := not_or.mp refused
    rw [writeEffect_ignored v s notCtrl notMsg, beq_false_of_ne notCtrl, beq_false_of_ne notMsg]
    simp

/-- Settles O51: a read changes what the host got back, and a write ERR_BUSY by its offset. -/
theorem hostAccessWhileBusyDisturbsNothing : Obligations.HostAccessWhileBusyDisturbsNothing := by
  intro t s hr hb
  cases hw : busWe t with
  | false => exact ⟨readView s (decodeOff (busOff t)) :: s.reads, by simp [exec_decodeBus, hw, hr]⟩
  | true => exact ⟨s.reads, by simp [exec_decodeBus, hw, hr, writeEffect_busy hb]⟩

/-! ### The ways out of DONE and ERROR (R225) -/

/-- A level of RST that changes PHASE asserts or releases the input, and loads R250. -/
theorem applyRst_of_leaves {level : Bool} {s : State} (leaves : (applyRst level s).PHASE ≠ s.PHASE) :
    (level = true ∨ s.RST = true) ∧ applyRst level s = { resetRegs s with RST := level } := by
  unfold applyRst at *
  split at leaves
  · next edge => exact ⟨edge, if_pos edge⟩
  · exact absurd rfl leaves

/-- Settles O55, by the next element: the engine has no micro-op there, so it is a host access or a level of RST. -/
theorem onlyInitAndResetLeaveDoneAndError : Obligations.OnlyInitAndResetLeaveDoneAndError := by
  intro s t hp run leaves
  have idle : nextMicroOp s = .idle := nextMicroOp_of_notBusy (Phase.notBusy_notReady_of_doneOrError hp).1
  have access {w : BitVec 39} {rest : List Event} (run : exec (decodeBus w) { s with events := rest } = .next t) :
      (∃ v, decodeBus w = .init v) ∧ t = resetRegs { s with events := rest } :=
    (exec_effect run).init_of_leaves (decodeBus_isHostAccess w) hp leaves
  obtain ⟨-, run⟩ | ⟨rest, -, run⟩ | ⟨w, rest, he, run⟩ | ⟨we, off, data, rest, he, run⟩ | ⟨level, rest, he, rfl⟩ :=
    step_cases run
  · rw [idle] at run
    cases run
    exact absurd rfl leaves
  · rw [idle] at run
    cases run
    exact absurd rfl leaves
  · obtain ⟨⟨v, init⟩, rfl⟩ := access run
    exact ⟨rfl, rfl, .inl ⟨w, rest, v, he, init⟩⟩
  · obtain ⟨⟨v, init⟩, rfl⟩ := access run
    exact ⟨rfl, rfl, .inr (.inl ⟨we, off, data, rest, v, he, init⟩)⟩
  · obtain ⟨edge, reset⟩ := applyRst_of_leaves (s := { s with events := rest }) leaves
    rw [reset]
    exact ⟨rfl, rfl, .inr (.inr ⟨level, rest, he, edge⟩)⟩

/-! ### What the end of a run delivers (R202) -/

section EndOfRun

variable {s : State}

theorem noErrors_iff : noErrors s = true ↔ NoFlags s := by
  refine ⟨fun h => ?_, noErrors_of_noFlags⟩
  have bit (i : Nat) (hi : i < 3) : (statusWord s).getLsbD (2 + i) = false := by
    have field := congrArg (·.getLsbD i) (eq_of_beq h)
    simpa [hi] using field
  obtain ⟨-, -, cmd, busy, tooLarge, -, -⟩ := statusWord_flags s
  exact ⟨cmd.symm.trans (bit 0 (by decide)), busy.symm.trans (bit 1 (by decide)), tooLarge.symm.trans (bit 2 (by decide))⟩

theorem runOutcome_of_ready (hp : s.PHASE = .ready) (hn : NoFlags s) : runOutcome s = .notOver := by
  simp only [runOutcome, hp, noErrors_of_noFlags hn, if_true]

theorem runOutcome_of_error (hp : s.PHASE = .error) : runOutcome s = .error := by
  simp only [runOutcome, hp]

theorem runOutcome_of_flag (hb : s.PHASE ≠ .busy) (hn : ¬NoFlags s) : runOutcome s = .error := by
  have flagged : ¬noErrors s = true := mt noErrors_iff.mp hn
  cases hp : s.PHASE with
  | busy => exact absurd hp hb
  | ready | done => simp only [runOutcome, hp, if_neg flagged]
  | error => exact runOutcome_of_error hp

theorem not_noFlags : ¬NoFlags s ↔ s.ERR_CMD = true ∨ s.ERR_BUSY = true ∨ s.ERR_TOOLARGE = true := by
  simp only [NoFlags, not_and_or, Bool.not_eq_false]

end EndOfRun

/-- At the end of a run the engine is at rest: its UOP is not reserved (I4). -/
theorem SpecInv.notBusy_of_runEnded {s : State} (h : SpecInv s) (ended : runEnded s = true) : s.PHASE ≠ .busy := by
  have noStep : s.PHASE ≠ .busy ∨ 0x34 ≤ s.UOP.toNat ∧ s.UOP.toNat ≤ 0x3E := by
    simpa [engineHasNoStep] using (Bool.and_eq_true_iff.mp ended).2
  exact noStep.resolve_right h.uopLegal

/-- Settles O46, by whether a flag is set and else by PHASE: each of the three outcomes excludes the other two. -/
theorem endOfARunDelivers : Obligations.EndOfARunDelivers := by
  intro s h ended
  have hb : s.PHASE ≠ .busy := h.notBusy_of_runEnded ended
  refine ⟨hb, ?_⟩
  by_cases clean : NoFlags s
  · have noErrors := noErrors_of_noFlags clean
    have ⟨cmd, busy, tooLarge⟩ := clean
    cases hp : s.PHASE with
    | busy => exact absurd hp hb
    | ready => simp [runOutcome_of_ready hp clean, cmd, busy, tooLarge]
    | done => simp [runOutcome_of_done hp noErrors, cmd, busy, tooLarge, eq_comm]
    | error => simp [runOutcome_of_error hp]
  · have error : runOutcome s = .error := runOutcome_of_flag hb clean
    rw [error]
    exact ⟨fun _ => iff_of_false nofun fun ⟨_, cmd, busy, tooLarge, _⟩ => clean ⟨cmd, busy, tooLarge⟩,
      iff_of_true rfl (.inr (not_noFlags.mp clean)), iff_of_false nofun fun ⟨_, flags⟩ => clean flags⟩

end Sys2Proof.Machine
end

section
/-! PROOFS. The statement of spec/60_exceptions.md: the one error of a refused write (R223). -/

namespace Sys2Proof.Machine

/-! ### Priority within one access (R223) -/

/-- BLOCK and FINAL are the commands that count bytes, and both come to the same checks (R183, R184). -/
theorem exec_countingWrite {v : Word} (cmd : ctrlCmd v = 0x2 ∨ ctrlCmd v = 0x3) (s : State) :
    ∃ fin nb uop, exec (decodeBus (busWrite .ctrl v)) s =
      ctrlWrite s (acceptCommand (if ctrlCmd v = 0x2 then 64 else (ctrlNbytes v).toNat) fin nb uop) := by
  obtain block | final := cmd
  · refine ⟨false, 0, 0x31, ?_⟩
    rw [(blockCommandOutcomes v).1 block, if_pos block]
    rfl
  · refine ⟨true, ctrlNbytes v, 0x32, ?_⟩
    rw [(finalCommandOutcomes v).1 final, final]
    rfl

/-- A write of a reserved command, in either row, raises ErrCmd (R185). -/
theorem exec_reservedWrite {v : Word} {s : State} (hr : s.RST = false) (hb : s.PHASE ≠ .busy) (reserved : 0x4 ≤ (ctrlCmd v).toNat) :
    exec (decodeBus (busWrite .ctrl v)) s = .next { s with ERR_CMD := true } := by
  obtain ⟨row01xx, row1xxx, raises⟩ := reservedCommandsSetErrCmd v
  obtain ⟨errCmd01xx, errCmd1xxx⟩ := (raises s hr).1 hb
  obtain low | high := Nat.lt_or_ge (ctrlCmd v).toNat 0x8
  · rw [row01xx reserved (Nat.le_of_lt_succ low), errCmd01xx]
  · rw [row1xxx high, errCmd1xxx]

/-- Settles O16, condition by condition: BUSY before the command is looked at, a reserved CMD by its row, phase and length by the
checks BLOCK and FINAL share; a MSG write has the one condition BUSY. -/
theorem errorPriorityOfOneCtrlWrite : Obligations.ErrorPriorityOfOneCtrlWrite := by
  intro v add s hr count
  subst count
  refine ⟨ctrlWriteWhileBusySetsErrBusy v s hr, exec_reservedWrite hr, fun hp cmd => ?_, fun hp cmd tooLong => ?_, fun j hb => ?_⟩
  · obtain ⟨fin, nb, uop, run⟩ := exec_countingWrite cmd s
    obtain ⟨-, -, wrongPhase, -⟩ := ctrlWrite_acceptCommand hr _ fin nb uop
    exact run.trans (wrongPhase hp)
  · obtain ⟨fin, nb, uop, run⟩ := exec_countingWrite cmd s
    obtain ⟨-, tooLarge, -, -⟩ := ctrlWrite_acceptCommand hr _ fin nb uop
    exact run.trans (tooLarge hp tooLong)
  · obtain ⟨-, write, outcomes⟩ := messageRegisters j v
    obtain ⟨-, errBusy⟩ := (outcomes s hr).2 hb
    rw [write, errBusy]

end Sys2Proof.Machine
end

section
/-! PROOFS. The statements of spec/70_reset_and_hazards.md: the state after reset (R250) and the reset input (R251). -/

namespace Sys2Proof.Machine

/-! ### The reset state (R250) -/

theorem reset_X (j : Fin 16) : State.reset.X[j] = 0 := by
  simp [State.reset]

theorem specInv_reset : SpecInv State.reset :=
  (resetSatisfiesTheInvariants []).toSpecInv

/-- Settles O6: the rows of the table are the fields of the reset state, R31 is part of the invariants that hold there, the reads
are those of R35's last column, and INIT is R182. -/
theorem resetStateIsR250 : Obligations.ResetStateIsR250 := by
  refine ⟨rfl, rfl, rfl, rfl, rfl, rfl, rfl, rfl, reset_X, rfl, rfl, rfl, rfl, rfl, rfl, rfl, rfl, rfl, specInv_reset,
    exec_decodeRead_reset .status, exec_decodeRead_reset (.digest 0), fun v s hr hb => ?_⟩
  obtain ⟨-, init⟩ := initStartsANewMessage v
  obtain ⟨-, toReset⟩ := (init s hr).1 hb
  exact toReset

/-! ### The RST input (R251) -/

/-- Asserting RST, and any level while it is asserted, loads R250. -/
theorem applyRst_of_edge {level : Bool} {s : State} (edge : level = true ∨ s.RST = true) :
    applyRst level s = { resetRegs s with RST := level } :=
  if_pos edge

section Asserted

variable {s : State} (hr : s.RST = true)
include hr

theorem nextMicroOp_of_asserted : nextMicroOp s = .idle :=
  if_neg fun released => by simp [hr] at released

/-- A host access while RST is asserted: a write does nothing, a read returns 0. -/
theorem exec_decodeBus_of_asserted (t : BitVec 39) :
    exec (decodeBus t) s = .next { s with reads := if busWe t then s.reads else 0 :: s.reads } := by
  rw [exec_decodeBus, if_pos hr, if_pos hr]
  cases busWe t <;> rfl

/-- Everything a step from an asserted RST can do: no register changes, or the input takes a level and R250 is loaded. -/
theorem step_cases_of_asserted {t : State} (run : step s = .next t) :
    (∃ evs words, t = { s with events := evs, reads := words }) ∨
    ∃ level evs, t = { resetRegs s with RST := level, events := evs } := by
  have idle : nextMicroOp s = .idle := nextMicroOp_of_asserted hr
  have access (w : BitVec 39) (rest : List Event) := exec_decodeBus_of_asserted (s := { s with events := rest }) hr w
  obtain ⟨-, run⟩ | ⟨rest, -, run⟩ | ⟨w, rest, -, run⟩ | ⟨we, off, data, rest, -, run⟩ | ⟨level, rest, -, rfl⟩ := step_cases run
  · rw [idle] at run
    cases run
    exact .inl ⟨_, _, rfl⟩
  · rw [idle] at run
    cases run
    exact .inl ⟨_, _, rfl⟩
  · cases (access w rest).symm.trans run
    exact .inl ⟨_, _, rfl⟩
  · cases (access (memTxn we off data) rest).symm.trans run
    exact .inl ⟨_, _, rfl⟩
  · exact .inr ⟨level, rest, applyRst_of_edge (.inr hr)⟩

/-- The state of R250 is held along a step from an asserted RST, its release included. -/
theorem step_holds_resetRegs {t : State} (held : s = resetRegs s) (run : step s = .next t) : t = resetRegs t := by
  obtain ⟨evs, words, rfl⟩ | ⟨level, evs, rfl⟩ := step_cases_of_asserted hr run
  · exact congrArg (fun u : State => { u with events := evs, reads := words }) held
  · rfl

end Asserted

/-- Settles O8: a level loads R250, and under an asserted RST each element has the outcome its own lemma gives it. -/
theorem rstHoldsTheResetState : Obligations.RstHoldsTheResetState := by
  refine ⟨fun s rest he => ?_, fun s hr held =>
    ⟨fun t => step_holds_resetRegs hr held, fun rest he => ?_, fun t rest he write => ?_, fun t rest he read => ?_,
      fun rest he => ?_⟩⟩
  · rw [step_of_rst he, applyRst_of_edge (s := { s with events := rest }) (.inl rfl)]
    rfl
  · rw [step_of_engine he, nextMicroOp_of_asserted hr, exec_idle]
  · rw [step_of_bus he, exec_decodeBus_of_asserted (s := { s with events := rest }) hr, write]
    rfl
  · rw [step_of_bus he, exec_decodeBus_of_asserted (s := { s with events := rest }) hr, read]
    rfl
  · rw [step_of_rst he, applyRst_of_edge (s := { s with events := rest }) (.inr hr)]
    rfl

end Sys2Proof.Machine
end
